-- ==== Sys2Proof/Word.lean ====
section
/-! DEFINITION. The word types of the chip8 CORE (00_scope.md R7: every value is unsigned). -/

namespace Sys2Proof

/-- A memory cell, a V register, DT, ST, or the immediate NN: 8 bits (00_scope.md R4). -/
abbrev Byte := BitVec 8

/-- I, PC, a stack entry, or an instruction word: 16 bits (00_scope.md R4). -/
abbrev Word := BitVec 16

/-- The immediate NNN and the address on the memory port: 12 bits (00_scope.md R4, 30_encoding.md R51). -/
abbrev Addr12 := BitVec 12

/-- The index of a V register, of a key, or the row count N: a four-bit field, 0 to 15 (30_encoding.md R51). -/
abbrev Nibble := Fin 16

end Sys2Proof
end

