-- ==== Sys2Proof/Config.lean ====
section
/-! DEFINITION. What the spec leaves open as a parameter, as free values: constants without a body, so that no
proof can see what they are and every theorem holds for all of them (93_implementation_defined.md, treatments
"parameter" and "any value"). -/

namespace Sys2Proof.Config

/-- `FONT[0..79]`, the bytes of the digit sprites: an open parameter (20_memory.md R39, D18; log 2). -/
opaque font : Fin 80 → Byte

/-- `MEM0`, the power-on content of an address outside the font region (70_reset_and_hazards.md R172, D21; log 1). -/
opaque mem0 : Nat → Byte

/-- The choice behind `KEYSEL` when several keys are down (44_timers_input.md R136, D15; log 4). The law that the
chosen key is a pressed one is kept by `Machine.keysel`, which is what FX0A calls. -/
opaque keysel : BitVec 16 → Nibble

/-- The byte on the `rnd` port at the n-th draw of CXNN (41_alu.md R103, D16; log 3). -/
opaque rnd : Nat → Byte

end Sys2Proof.Config
end

