-- ==== Sys2Proof/Machine/State.lean ====
section
/-! DEFINITION. The state of the chip8 CORE (10_state.md), as plain data, and its value right after reset (R25). -/

namespace Sys2Proof.Machine

/-- The four fault conditions of 60_exceptions.md R140, in the order of their codes 0 to 3. -/
inductive FaultCode where
  /-- code 0: the fetched word is none of the 35 instructions (R142) -/
  | unk
  /-- code 1: 2NNN with a full stack (R143) -/
  | stkOvf
  /-- code 2: 00EE with an empty stack (R144) -/
  | stkUnf
  /-- code 3: an effective address above 0xFFF (R145) -/
  | addr
deriving DecidableEq, Repr

/-- One event on the fault port (60_exceptions.md R141): `fault_evt_code`, `fault_evt_pc`, `fault_evt_info`. -/
structure FaultEvent where
  code : FaultCode
  /-- the address of the instruction: its PC before the fetch -/
  pc   : Word
  /-- R140: the word for UNK, STK_OVF and STK_UNF; `ea mod 2^16` for ADDR -/
  info : Word
deriving DecidableEq, Repr

/-- The events that change the state (00_scope.md R6), and `tickEdge`, the edge on the `tick` port that sets
TICK_PEND (60_exceptions.md R154; log 8). -/
inductive Event where
  /-- `Reset` (70_reset_and_hazards.md R170) -/
  | reset
  /-- `Load(addr, byte)` (20_memory.md R40) -/
  | load (addr : Addr12) (byte : Byte)
  /-- `CpuStep(rnd)` with the byte the host drives on the `rnd` port (40_flow.md R70) -/
  | cpuStep (rnd : Byte)
  /-- `TimerTick` (60_exceptions.md R152) -/
  | timerTick
  /-- `KeyDown(k)` (60_exceptions.md R155) -/
  | keyDown (k : Nibble)
  /-- `KeyUp(k)` (60_exceptions.md R155) -/
  | keyUp (k : Nibble)
  /-- `DisplayRead` (20_memory.md R48) -/
  | displayRead
  /-- a detected edge on the `tick` port (60_exceptions.md R154) -/
  | tickEdge
deriving DecidableEq, Repr

/-- `MEM` as the cells that hold a value of their own, by rising address. An address that is not listed holds no
value of the list: it reads as `Memory.unlisted` says (Machine/Memory.lean; log 1, log 2). -/
abbrev Memory := List Host.Cell

/-- `FB[y][x]`: 32 rows (`FB_H`) of 64 pixels (`FB_W`), true for on (R19). -/
abbrev Framebuffer := Vector (Vector Bool 64) 32

/-- Why the machine stops with a fault: never. The spec's faults are reported and execution continues
(60_exceptions.md R141, R149), so this type has no constructor, no instruction and no event raises one, and that is
as the spec says, neither safe nor unsafe (log 14). -/
inductive Fault where
deriving DecidableEq, Repr

/-- Why a step has no meaning. -/
inductive Refusal where
  /-- raised by `exec` for an instruction that has no meaning yet (safe: the machine stops); no arm raises it now -/
  | notModelled (mnemonic : String)
  /-- raised by the event `Load` once a `CpuStep` has occurred since the last `Reset`: the spec gives it no move
  there (20_memory.md R49; 93_implementation_defined.md U19 "refuse"); safe as a stop, see log 9 -/
  | loadDuringRun
deriving DecidableEq, Repr

/-- The complete state: the tuple of 10_state.md, the hidden bit of R22, and the model's own fields. -/
structure State where
  /-- `V[0..15]` (R10, R11) -/
  v           : Vector Byte 16
  /-- `I` (R14) -/
  i           : Word
  /-- `PC` (R13) -/
  pc          : Word
  /-- `SP`, the number of stack entries in use, 0 to 16 (R15; log 6) -/
  sp          : Fin 17
  /-- `STACK[0..15]` (R18) -/
  stack       : Vector Word 16
  /-- `DT` (R16) -/
  dt          : Byte
  /-- `ST` (R17) -/
  st          : Byte
  /-- `FB` (R19) -/
  fb          : Framebuffer
  /-- `KEYS[0..15]` (R20), true for pressed -/
  keys        : Vector Bool 16
  /-- `MEM` (R23) -/
  mem         : Memory
  /-- `FAULT`, bit = fault code (R21) -/
  fault       : BitVec 4
  /-- `TICK_PEND` (R22) -/
  tickPend    : Bool
  /-- the model's own: the fault events since the last `Reset`, oldest first (60_exceptions.md R141; log 10) -/
  faultEvents : List FaultEvent
  /-- the model's own: a `CpuStep` has occurred since the last `Reset` (20_memory.md R49; log 9) -/
  started     : Bool
  /-- the model's own: the events the host will deliver, first one first (00_scope.md R6; log 7) -/
  schedule    : List Event
  /-- the model's own: the byte the schedule drives on the `rnd` port for the current `CpuStep`, if any (log 3) -/
  rndPort     : Option Byte
  /-- the model's own: how many random bytes CXNN has drawn (41_alu.md R103; log 3) -/
  rndDraws    : Nat
deriving DecidableEq, Repr

/-- The state right after reset (10_state.md R25). Memory lists nothing, so it reads as FONT and MEM0. The stack
entries are unspecified and unobservable there (R18; log 5: DESIGN CHOICE 0); the model's own fields start empty
(log 16). -/
def State.reset : State where
  v           := Vector.replicate 16 0
  i           := 0
  pc          := 0x0200
  sp          := 0
  stack       := Vector.replicate 16 0
  dt          := 0
  st          := 0
  fb          := Vector.replicate 32 (Vector.replicate 64 false)
  keys        := Vector.replicate 16 false
  mem         := []
  fault       := 0
  tickPend    := false
  faultEvents := []
  started     := false
  schedule    := []
  rndPort     := none
  rndDraws    := 0

end Sys2Proof.Machine
end

