-- ==== Sys2Proof/Machine/Memory.lean ====
section
/-! DEFINITION. `MEM[0..4095]` (20_memory.md R30) as a list of cells in one canonical form. The functions take an
address that the range policy (R35) has already reduced; MemRead and MemWrite are in Machine/Ops.lean. -/

namespace Sys2Proof.Machine

/-- What an address that is not listed reads as: `FONT` in the font region (10_state.md R25), elsewhere the
power-on content `MEM0` (70_reset_and_hazards.md R172). Both are free values (log 1, log 2). -/
def Memory.unlisted (a : Nat) : Byte :=
  if h : a < 80 then Config.font ⟨a, h⟩ else Config.mem0 a

/-- The value listed for an address, or none. -/
def Memory.cellAt : Memory → Nat → Option Byte
  | [], _ => none
  | (k, b) :: m, a => if k = a then some b else Memory.cellAt m a

/-- `MEM[a]`. -/
def Memory.read (m : Memory) (a : Nat) : Byte := (Memory.cellAt m a).getD (Memory.unlisted a)

/-- `MEM[a] <- b`, in the place the rising order gives it. -/
def Memory.write : Memory → Nat → Byte → Memory
  | [], a, b => [(a, b)]
  | (k, c) :: m, a, b =>
    if a < k then (a, b) :: (k, c) :: m
    else if a = k then (a, b) :: m
    else (k, c) :: Memory.write m a b

/-- The memory in which every address below `n` is unlisted again; `Reset` uses it to rewrite the font region. -/
def Memory.unlistBelow (n : Nat) (m : Memory) : Memory := m.filter (fun c => n ≤ c.1)

/-- The canonical form: addresses strictly rising and inside the address space. An unlisted address has no value of
the list, so no entry can equal what an unlisted address holds, and equal memories are equal lists (log 1). -/
abbrev Memory.wf (m : Memory) : Prop :=
  m.Pairwise (fun c d => c.1 < d.1) ∧ ∀ c ∈ m, c.1 < 4096

end Sys2Proof.Machine
end

