-- ==== Sys2Proof/Machine/Ops.lean ====
section
/-! DEFINITION. The shared operations every instruction's meaning is built from: register access, fault reporting
(60_exceptions.md R141), the memory primitives (20_memory.md R36, R37), the skip (40_flow.md R71), the stack
(R72, R75), pixels (43_display.md R120), the key mask (44_timers_input.md R135, R136), the random draw (41_alu.md
R103). Meanings run after the fetch, so `s.pc` is already the address of the following instruction (40_flow.md R70). -/

namespace Sys2Proof.Machine

/-! ## Registers -/

/-- `V[r]` (10_state.md R10: no register is hard-wired). -/
def State.getV (s : State) (r : Nibble) : Byte := s.v[r.val]

/-- `V[r] <- b`. -/
def State.setV (s : State) (r : Nibble) (b : Byte) : State := { s with v := s.v.set r.val b }

/-- `I <- w`. -/
def State.setI (s : State) (w : Word) : State := { s with i := w }

/-- `pc <- w`. -/
def State.setPc (s : State) (w : Word) : State := { s with pc := w }

/-- `DT <- b`. -/
def State.setDt (s : State) (b : Byte) : State := { s with dt := b }

/-- `ST <- b`. -/
def State.setSt (s : State) (b : Byte) : State := { s with st := b }

/-- The address `a` of the instruction being run: the fetch left PC at `(a + 2) mod 2^16` (40_flow.md R70; log 11). -/
def State.instrAddr (s : State) : Word := s.pc - 2

/-! ## Reporting a fault (60_exceptions.md R141): the one shared operation of every fault condition -/

/-- The bit of FAULT and the value of `fault_evt_code` (R140). -/
def FaultCode.bit : FaultCode → Fin 4
  | .unk => 0
  | .stkOvf => 1
  | .stkUnf => 2
  | .addr => 3

/-- `Report(code, info)` by the instruction at `a`: set the sticky bit, emit one event, change nothing else. -/
def report (code : FaultCode) (a info : Word) (s : State) : State :=
  { s with
    fault := s.fault ||| BitVec.twoPow 4 code.bit.val
    faultEvents := s.faultEvents ++ [{ code := code, pc := a, info := info }] }

/-! ## Memory (20_memory.md R35 to R37) -/

/-- Step 1 of the range policy (R35): an effective address above 0xFFF is reported, as `ea mod 2^16`. -/
def reportRange (a : Word) (ea : Nat) (s : State) : State :=
  if 0xFFF < ea then report .addr a (BitVec.ofNat 16 ea) s else s

/-- `MemRead(ea, 1)` by the instruction at `a` (R36): the byte and the state after the report. -/
def memRead (a : Word) (ea : Nat) (s : State) : Byte × State :=
  (Memory.read s.mem (ea % 4096), reportRange a ea s)

/-- `MemWrite(ea, 1, b)` by the instruction at `a` (R37). -/
def memWrite (a : Word) (ea : Nat) (b : Byte) (s : State) : State :=
  { reportRange a ea s with mem := Memory.write s.mem (ea % 4096) b }

/-! ## Control flow -/

/-- `Skip()` (40_flow.md R71). -/
def skip (s : State) : State := s.setPc (s.pc + 2)

/-- `if c then Skip()`. -/
def skipIf (c : Bool) (s : State) : State := if c then skip s else s

/-- 2NNN's effect (40_flow.md R75, 60_exceptions.md R143): with a full stack report STK_OVF and do nothing else,
otherwise push PC and go to the target. `op` is the instruction word. -/
def callTo (op target : Word) (s : State) : State :=
  if h : s.sp.val < 16 then
    { s with stack := s.stack.set s.sp.val s.pc, sp := ⟨s.sp.val + 1, by omega⟩, pc := target }
  else report .stkOvf s.instrAddr op s

/-- 00EE's effect (40_flow.md R72, 60_exceptions.md R144): with an empty stack report STK_UNF and do nothing else,
otherwise pop into PC. `op` is the instruction word. -/
def popReturn (op : Word) (s : State) : State :=
  if h : 0 < s.sp.val then
    { s with sp := ⟨s.sp.val - 1, by omega⟩, pc := s.stack[s.sp.val - 1]'(by omega) }
  else report .stkUnf s.instrAddr op s

/-! ## Framebuffer (43_display.md R120) -/

/-- `FB[y][x]`. -/
def State.pixel (s : State) (y : Fin 32) (x : Fin 64) : Bool := (s.fb[y.val])[x.val]

/-- `FB[y][x] <- b`. -/
def State.setPixel (s : State) (y : Fin 32) (x : Fin 64) (b : Bool) : State :=
  { s with fb := s.fb.set y.val (s.fb[y.val].set x.val b) }

/-- Every pixel off. -/
def State.clearFb (s : State) : State := { s with fb := Vector.replicate 32 (Vector.replicate 64 false) }

/-! ## Keys (44_timers_input.md R135, R136) -/

/-- `KEYS[k]`. -/
def State.key (s : State) (k : Nibble) : Bool := s.keys[k.val]

/-- `KEYS[k] <- b`. -/
def State.setKey (s : State) (k : Nibble) (b : Bool) : State := { s with keys := s.keys.set k.val b }

/-- `mask = KEYS[15] ## ... ## KEYS[0]`. -/
def State.keyMask (s : State) : BitVec 16 := BitVec.ofFnLE s.key

/-- The lowest index whose bit is set; 0 for the zero mask, for which it is never asked. -/
def lowestKey (mask : BitVec 16) : Nibble :=
  ((List.finRange 16).find? (fun k => mask.getLsbD k.val)).getD 0

/-- `KEYSEL(mask)` (R136): for a mask of one key that key; for several, the free choice of Config, held to the only
law the spec gives, that the result is a pressed key (log 4). -/
def keysel (mask : BitVec 16) : Nibble :=
  if mask = BitVec.twoPow 16 (lowestKey mask).val then lowestKey mask
  else if mask.getLsbD (Config.keysel mask).val then Config.keysel mask
  else lowestKey mask

/-! ## Random byte (41_alu.md R103) -/

/-- The byte on the `rnd` port: what the schedule drives, else the next free value (log 3). -/
def State.rndByte (s : State) : Byte := s.rndPort.getD (Config.rnd s.rndDraws)

/-- A draw has been made: the next free draw is a fresh value. -/
def State.countDraw (s : State) : State := { s with rndDraws := s.rndDraws + 1 }

end Sys2Proof.Machine
end

