-- ==== Sys2Proof/Machine/Flags.lean ====
section
/-! DEFINITION. The flag computations (10_state.md R12, 41_alu.md R90) and the VF write law (41_alu.md R91). -/

namespace Sys2Proof.Machine

/-- A flag as the value VF receives: always exactly 0x00 or 0x01 (10_state.md R11). -/
def flagByte (b : Bool) : Byte := if b then 1 else 0

/-- 8XY4's carry: the sum of the two bytes exceeds 255 (41_alu.md R98). -/
def carry (vx vy : Byte) : Bool := 255 < vx.toNat + vy.toNat

/-- The complement of the borrow of `minuend − subtrahend` (41_alu.md R90, R99, R101). -/
def notBorrow (minuend subtrahend : Byte) : Bool := subtrahend.toNat ≤ minuend.toNat

/-- The bit 8XY6 shifts out (41_alu.md R100). -/
def lowBit (vx : Byte) : Bool := vx.getLsbD 0

/-- The bit 8XYE shifts out (41_alu.md R102). -/
def highBit (vx : Byte) : Bool := vx.getLsbD 7

/-- The write law (41_alu.md R91): the data result first, the flag second, so with X = 15 the flag is what remains.
Both arguments were computed from the values the registers held when the instruction started. -/
def writeWithFlag (x : Nibble) (result : Byte) (flag : Bool) (s : State) : State :=
  (s.setV x result).setV 15 (flagByte flag)

end Sys2Proof.Machine
end

