-- ==== Sys2Proof/Machine/Operands.lean ====
section
/-! DEFINITION. The operand forms (30_encoding.md R53, 42_index_memory.md R116, 44_timers_input.md R137): how an
immediate or a register value is widened, how a data address is formed, which key a register selects. -/

namespace Sys2Proof.Machine

/-- `zext_16` of an 8-bit value (30_encoding.md R53). -/
def zextByte (b : Byte) : Word := b.setWidth 16

/-- `zext_16(NNN)` (30_encoding.md R53). -/
def zextAddr (nnn : Addr12) : Word := nnn.setWidth 16

/-- `zext_8` of a key index (44_timers_input.md R135): 0x00 to 0x0F. -/
def zextKey (k : Nibble) : Byte := BitVec.ofNat 8 k.val

/-- The key an 8-bit value selects: its low four bits (44_timers_input.md R137). -/
def keyIndex (b : Byte) : Nibble := (b.extractLsb' 0 4).toFin

/-- The effective address of the k-th byte of a data access, `ea = I + k`, from the full 16-bit I as an unbounded
number (42_index_memory.md R116). -/
def dataAddr (s : State) (k : Nat) : Nat := s.i.toNat + k

/-- The address of the digit sprite of a value: the whole 8-bit value times 5 (42_index_memory.md R112). -/
def digitAddr (b : Byte) : Word := BitVec.ofNat 16 (b.toNat * 5)

/-- The hundreds digit (42_index_memory.md R113). -/
def hundreds (b : Byte) : Byte := BitVec.ofNat 8 (b.toNat / 100)

/-- The tens digit (42_index_memory.md R113). -/
def tens (b : Byte) : Byte := BitVec.ofNat 8 (b.toNat / 10 % 10)

/-- The ones digit (42_index_memory.md R113). -/
def ones (b : Byte) : Byte := BitVec.ofNat 8 (b.toNat % 10)

end Sys2Proof.Machine
end

