-- ==== Sys2Proof/Machine/Alu.lean ====
section
/-! DEFINITION. The meanings of 41_alu.md: 6XNN, 7XNN, 8XY0 to 8XY7, 8XYE, CXNN. -/

namespace Sys2Proof.Machine

/-- 6XNN: `V[X] <- NN` (R92). -/
def execLdVxNn (x : Nibble) (nn : Byte) (s : State) : Host.Outcome State Fault Refusal :=
  .next (s.setV x nn)

/-- 7XNN: `V[X] <- (V[X] + NN) mod 256`, VF untouched (R93). -/
def execAddVxNn (x : Nibble) (nn : Byte) (s : State) : Host.Outcome State Fault Refusal :=
  .next (s.setV x (s.getV x + nn))

/-- 8XY0: `V[X] <- V[Y]` (R94). -/
def execLdVxVy (x y : Nibble) (s : State) : Host.Outcome State Fault Refusal :=
  .next (s.setV x (s.getV y))

/-- 8XY1: `V[X] <- V[X] | V[Y]` (R95). -/
def execOrVxVy (x y : Nibble) (s : State) : Host.Outcome State Fault Refusal :=
  .next (s.setV x (s.getV x ||| s.getV y))

/-- 8XY2: `V[X] <- V[X] & V[Y]` (R96). -/
def execAndVxVy (x y : Nibble) (s : State) : Host.Outcome State Fault Refusal :=
  .next (s.setV x (s.getV x &&& s.getV y))

/-- 8XY3: `V[X] <- V[X] ^ V[Y]` (R97). -/
def execXorVxVy (x y : Nibble) (s : State) : Host.Outcome State Fault Refusal :=
  .next (s.setV x (s.getV x ^^^ s.getV y))

/-- 8XY4: the sum modulo 256, VF the carry (R98). -/
def execAddVxVy (x y : Nibble) (s : State) : Host.Outcome State Fault Refusal :=
  .next (writeWithFlag x (s.getV x + s.getV y) (carry (s.getV x) (s.getV y)) s)

/-- 8XY5: `VX − VY` modulo 256, VF the complement of the borrow (R99). -/
def execSubVxVy (x y : Nibble) (s : State) : Host.Outcome State Fault Refusal :=
  .next (writeWithFlag x (s.getV x - s.getV y) (notBorrow (s.getV x) (s.getV y)) s)

/-- 8XY6: VX shifted right by one, VF the bit shifted out; Y is ignored (R100). -/
def execShrVx (x _y : Nibble) (s : State) : Host.Outcome State Fault Refusal :=
  .next (writeWithFlag x (s.getV x >>> 1) (lowBit (s.getV x)) s)

/-- 8XY7: `VY − VX` modulo 256, VF the complement of the borrow (R101). -/
def execSubnVxVy (x y : Nibble) (s : State) : Host.Outcome State Fault Refusal :=
  .next (writeWithFlag x (s.getV y - s.getV x) (notBorrow (s.getV y) (s.getV x)) s)

/-- 8XYE: VX shifted left by one, VF the bit shifted out; Y is ignored (R102). -/
def execShlVx (x _y : Nibble) (s : State) : Host.Outcome State Fault Refusal :=
  .next (writeWithFlag x (s.getV x <<< 1) (highBit (s.getV x)) s)

/-- CXNN: `V[X] <- rnd & NN`, with a fresh random byte (R103). -/
def execRndVxNn (x : Nibble) (nn : Byte) (s : State) : Host.Outcome State Fault Refusal :=
  .next ((s.setV x (s.rndByte &&& nn)).countDraw)

end Sys2Proof.Machine
end

