-- ==== Sys2Proof/Machine/Display.lean ====
section
/-! DEFINITION. The meanings of 43_display.md: 00E0 and DXYN, with the sprite engine. -/

namespace Sys2Proof.Machine

/-- 00E0: every pixel off, VF untouched (R121). -/
def execCls (s : State) : Host.Outcome State Fault Refusal :=
  .next s.clearFb

/-- A set sprite bit toggles its pixel; a pixel that goes from on to off is a collision, VF = 1 (R122). -/
def togglePixel (y : Fin 32) (x : Fin 64) (s : State) : State :=
  if s.pixel y x then (s.setPixel y x false).setV 15 1 else s.setPixel y x true

/-- The column a sprite bit is drawn at: `(x0 + column) mod 64` (R120, R122). -/
def drawColumn (x0 : Byte) (column : Nat) : Fin 64 := Fin.ofNat 64 (x0.toNat + column)

/-- The row a sprite byte is drawn at: `(y0 + row) mod 32` (R120, R122). -/
def drawRow (y0 : Byte) (row : Nat) : Fin 32 := Fin.ofNat 32 (y0.toNat + row)

/-- The sprite bit of a column: bit 7 is column 0, the leftmost (R123, D17). -/
def spriteBit (b : Byte) (column : Nat) : Bool := b.getLsbD (7 - column)

/-- One column of a sprite byte (R122). -/
def drawBit (b : Byte) (x0 : Byte) (y : Fin 32) (s : State) (column : Nat) : State :=
  if spriteBit b column then togglePixel y (drawColumn x0 column) s else s

/-- The eight columns of a sprite byte (R122). -/
def drawByte (b : Byte) (x0 : Byte) (y : Fin 32) (s : State) : State :=
  (List.range 8).foldl (drawBit b x0 y) s

/-- One row of a sprite: read the byte at I + row, draw it (R122). -/
def drawSpriteRow (a : Word) (x0 y0 : Byte) (s : State) (row : Nat) : State :=
  drawByte (memRead a (dataAddr s row) s).1 x0 (drawRow y0 row) (memRead a (dataAddr s row) s).2

/-- The rows 0 to n − 1 of a sprite, ascending (R122). -/
def drawSprite (a : Word) (x0 y0 : Byte) (n : Nat) (s : State) : State :=
  (List.range n).foldl (drawSpriteRow a x0 y0) s

/-- DXYN: the coordinates are read, VF is cleared, the rows are drawn (R122). -/
def execDrwVxVyN (x y n : Nibble) (s : State) : Host.Outcome State Fault Refusal :=
  .next (drawSprite s.instrAddr (s.getV x) (s.getV y) n.val (s.setV 15 0))

end Sys2Proof.Machine
end

