-- ==== Sys2Proof/Syntax.lean ====
section
/-! DEFINITION. The 35 instructions of 30_encoding.md R55, one constructor per row of spec/opcode_table.json, named
after the row's mnemonic. Operands are the fields of R51: `x` and `y` register indices, `nn` and `nnn` immediates,
`n` the sprite height. -/

namespace Sys2Proof

inductive Instr where
  /-- 00E0, R121 -/
  | cls
  /-- 00EE, R72 -/
  | ret
  /-- 0NNN, R73; the words 0x00E0 and 0x00EE are not of this form (R56, see WellFormed) -/
  | sysNnn (nnn : Addr12)
  /-- 1NNN, R74 -/
  | jpNnn (nnn : Addr12)
  /-- 2NNN, R75 -/
  | callNnn (nnn : Addr12)
  /-- 3XNN, R76 -/
  | seVxNn (x : Nibble) (nn : Byte)
  /-- 4XNN, R77 -/
  | sneVxNn (x : Nibble) (nn : Byte)
  /-- 5XY0, R78 -/
  | seVxVy (x y : Nibble)
  /-- 6XNN, R92 -/
  | ldVxNn (x : Nibble) (nn : Byte)
  /-- 7XNN, R93 -/
  | addVxNn (x : Nibble) (nn : Byte)
  /-- 8XY0, R94 -/
  | ldVxVy (x y : Nibble)
  /-- 8XY1, R95 -/
  | orVxVy (x y : Nibble)
  /-- 8XY2, R96 -/
  | andVxVy (x y : Nibble)
  /-- 8XY3, R97 -/
  | xorVxVy (x y : Nibble)
  /-- 8XY4, R98 -/
  | addVxVy (x y : Nibble)
  /-- 8XY5, R99 -/
  | subVxVy (x y : Nibble)
  /-- 8XY6, R100; the field Y is in the word and ignored -/
  | shrVx (x y : Nibble)
  /-- 8XY7, R101 -/
  | subnVxVy (x y : Nibble)
  /-- 8XYE, R102; the field Y is in the word and ignored -/
  | shlVx (x y : Nibble)
  /-- 9XY0, R79 -/
  | sneVxVy (x y : Nibble)
  /-- ANNN, R110 -/
  | ldINnn (nnn : Addr12)
  /-- BNNN, R80 -/
  | jpV0Nnn (nnn : Addr12)
  /-- CXNN, R103 -/
  | rndVxNn (x : Nibble) (nn : Byte)
  /-- DXYN, R122 -/
  | drwVxVyN (x y n : Nibble)
  /-- EX9E, R133 -/
  | skpVx (x : Nibble)
  /-- EXA1, R134 -/
  | sknpVx (x : Nibble)
  /-- FX07, R130 -/
  | ldVxDt (x : Nibble)
  /-- FX0A, R135 -/
  | ldVxK (x : Nibble)
  /-- FX15, R131 -/
  | ldDtVx (x : Nibble)
  /-- FX18, R132 -/
  | ldStVx (x : Nibble)
  /-- FX1E, R111 -/
  | addIVx (x : Nibble)
  /-- FX29, R112 -/
  | ldFVx (x : Nibble)
  /-- FX33, R113 -/
  | ldBVx (x : Nibble)
  /-- FX55, R114 -/
  | ldMemVx (x : Nibble)
  /-- FX65, R115 -/
  | ldVxMem (x : Nibble)
deriving DecidableEq, Repr

end Sys2Proof
end

