-- ==== Sys2Proof/WellFormed.lean ====
section
/-! DEFINITION. Which terms of `Instr` are instructions of the table. The operand types already bound every field
(30_encoding.md R53: all 16 values of X and Y are legal, every NN, NNN and N is legal); the one restriction the spec
adds is R56: 0NNN is every word of family 0 OTHER THAN 0x00E0 and 0x00EE. -/

namespace Sys2Proof

/-- The instruction is one that some word encodes (30_encoding.md R55, R56). -/
def Instr.wf : Instr → Bool
  | .cls => true
  | .ret => true
  | .sysNnn nnn => nnn != 0x0E0#12 && nnn != 0x0EE#12
  | .jpNnn _ => true
  | .callNnn _ => true
  | .seVxNn _ _ => true
  | .sneVxNn _ _ => true
  | .seVxVy _ _ => true
  | .ldVxNn _ _ => true
  | .addVxNn _ _ => true
  | .ldVxVy _ _ => true
  | .orVxVy _ _ => true
  | .andVxVy _ _ => true
  | .xorVxVy _ _ => true
  | .addVxVy _ _ => true
  | .subVxVy _ _ => true
  | .shrVx _ _ => true
  | .subnVxVy _ _ => true
  | .shlVx _ _ => true
  | .sneVxVy _ _ => true
  | .ldINnn _ => true
  | .jpV0Nnn _ => true
  | .rndVxNn _ _ => true
  | .drwVxVyN _ _ _ => true
  | .skpVx _ => true
  | .sknpVx _ => true
  | .ldVxDt _ => true
  | .ldVxK _ => true
  | .ldDtVx _ => true
  | .ldStVx _ => true
  | .addIVx _ => true
  | .ldFVx _ => true
  | .ldBVx _ => true
  | .ldMemVx _ => true
  | .ldVxMem _ => true

end Sys2Proof
end

