-- ==== Sys2Proof/Decode.lean ====
section
/-! DEFINITION. The decoder of 30_encoding.md R54, total on every word and on every list of bytes, and the encoder,
written from the patterns of R55 and the field positions of R51. -/

namespace Sys2Proof

/-! ## The fields of an instruction word (R51) -/

/-- `T = op[15:12]`, the family. -/
def fieldT (op : Word) : BitVec 4 := op.extractLsb' 12 4

/-- `X = op[11:8]`. -/
def fieldX (op : Word) : Nibble := (op.extractLsb' 8 4).toFin

/-- `Y = op[7:4]`. -/
def fieldY (op : Word) : Nibble := (op.extractLsb' 4 4).toFin

/-- `N = op[3:0]`. -/
def fieldN (op : Word) : Nibble := (op.extractLsb' 0 4).toFin

/-- `NN = op[7:0]`. -/
def fieldNN (op : Word) : Byte := op.extractLsb' 0 8

/-- `NNN = op[11:0]`. -/
def fieldNNN (op : Word) : Addr12 := op.extractLsb' 0 12

/-! ## Decoding (R54) -/

/-- Family 0: 0x00E0 and 0x00EE match on all twelve low bits, every other word is 0NNN (R56). -/
def decode0 (op : Word) : Option Instr :=
  if fieldNNN op = 0x0E0#12 then some .cls
  else if fieldNNN op = 0x0EE#12 then some .ret
  else some (.sysNnn (fieldNNN op))

/-- Family 8: the low nibble selects the operation (R54); the other values are unknown (R57). -/
def decode8 (op : Word) : Option Instr :=
  match (fieldN op).val with
  | 0x0 => some (.ldVxVy (fieldX op) (fieldY op))
  | 0x1 => some (.orVxVy (fieldX op) (fieldY op))
  | 0x2 => some (.andVxVy (fieldX op) (fieldY op))
  | 0x3 => some (.xorVxVy (fieldX op) (fieldY op))
  | 0x4 => some (.addVxVy (fieldX op) (fieldY op))
  | 0x5 => some (.subVxVy (fieldX op) (fieldY op))
  | 0x6 => some (.shrVx (fieldX op) (fieldY op))
  | 0x7 => some (.subnVxVy (fieldX op) (fieldY op))
  | 0xE => some (.shlVx (fieldX op) (fieldY op))
  | _ => none

/-- Family E: the low byte selects the skip (R54); the other values are unknown (R57). -/
def decodeE (op : Word) : Option Instr :=
  match (fieldNN op).toNat with
  | 0x9E => some (.skpVx (fieldX op))
  | 0xA1 => some (.sknpVx (fieldX op))
  | _ => none

/-- Family F: the low byte selects the operation (R54); the other values are unknown (R57). -/
def decodeF (op : Word) : Option Instr :=
  match (fieldNN op).toNat with
  | 0x07 => some (.ldVxDt (fieldX op))
  | 0x0A => some (.ldVxK (fieldX op))
  | 0x15 => some (.ldDtVx (fieldX op))
  | 0x18 => some (.ldStVx (fieldX op))
  | 0x1E => some (.addIVx (fieldX op))
  | 0x29 => some (.ldFVx (fieldX op))
  | 0x33 => some (.ldBVx (fieldX op))
  | 0x55 => some (.ldMemVx (fieldX op))
  | 0x65 => some (.ldVxMem (fieldX op))
  | _ => none

/-- `decode(op)` of R54; `none` is the spec's UNKNOWN (R57). -/
def decode (op : Word) : Option Instr :=
  match (fieldT op).toNat with
  | 0x0 => decode0 op
  | 0x1 => some (.jpNnn (fieldNNN op))
  | 0x2 => some (.callNnn (fieldNNN op))
  | 0x3 => some (.seVxNn (fieldX op) (fieldNN op))
  | 0x4 => some (.sneVxNn (fieldX op) (fieldNN op))
  | 0x5 => if fieldN op = 0 then some (.seVxVy (fieldX op) (fieldY op)) else none
  | 0x6 => some (.ldVxNn (fieldX op) (fieldNN op))
  | 0x7 => some (.addVxNn (fieldX op) (fieldNN op))
  | 0x8 => decode8 op
  | 0x9 => if fieldN op = 0 then some (.sneVxVy (fieldX op) (fieldY op)) else none
  | 0xA => some (.ldINnn (fieldNNN op))
  | 0xB => some (.jpV0Nnn (fieldNNN op))
  | 0xC => some (.rndVxNn (fieldX op) (fieldNN op))
  | 0xD => some (.drwVxVyN (fieldX op) (fieldY op) (fieldN op))
  | 0xE => decodeE op
  | _ => decodeF op

/-- Why a list of bytes is no instruction: raised by `decodeBytes` only. -/
inductive DecodeError where
  /-- fewer than the two bytes every instruction has (R50) -/
  | truncated
  /-- the word matches none of the 35 patterns (R57); executing it reports UNK and goes on (60_exceptions.md R142) -/
  | unknownOpcode (op : Word)
deriving DecidableEq, Repr

/-- The word of two consecutive bytes, the first the high half (20_memory.md R32). -/
def wordOfBytes (b0 b1 : Byte) : Word := b0 ++ b1

/-- Decode the instruction at the front of a list of bytes and return the rest (R50: always two bytes). -/
def decodeBytes : List Byte → Except DecodeError (Instr × List Byte)
  | b0 :: b1 :: rest =>
    match decode (wordOfBytes b0 b1) with
    | some i => .ok (i, rest)
    | none => .error (.unknownOpcode (wordOfBytes b0 b1))
  | [_] => .error .truncated
  | [] => .error .truncated

/-! ## Encoding (R51, R55) -/

/-- A word of format ADDR or FIXED: `T[4], NNN[12]` (R52). -/
def wordNNN (t : BitVec 4) (nnn : Addr12) : Word := t ++ nnn

/-- A word of format REG_IMM or REG_SUB: `T[4], X[4], NN[8]` (R52). -/
def wordXNN (t : BitVec 4) (x : Nibble) (nn : Byte) : Word := t ++ (BitVec.ofFin x : BitVec 4) ++ nn

/-- A word of format REG_REG or REG_REG_N: `T[4], X[4], Y[4], N[4]` (R52). -/
def wordXYN (t : BitVec 4) (x y : Nibble) (n : BitVec 4) : Word :=
  t ++ (BitVec.ofFin x : BitVec 4) ++ (BitVec.ofFin y : BitVec 4) ++ n

/-- The word of an instruction, from the patterns of R55. -/
def encode : Instr → Word
  | .cls => wordNNN 0x0 0x0E0
  | .ret => wordNNN 0x0 0x0EE
  | .sysNnn nnn => wordNNN 0x0 nnn
  | .jpNnn nnn => wordNNN 0x1 nnn
  | .callNnn nnn => wordNNN 0x2 nnn
  | .seVxNn x nn => wordXNN 0x3 x nn
  | .sneVxNn x nn => wordXNN 0x4 x nn
  | .seVxVy x y => wordXYN 0x5 x y 0x0
  | .ldVxNn x nn => wordXNN 0x6 x nn
  | .addVxNn x nn => wordXNN 0x7 x nn
  | .ldVxVy x y => wordXYN 0x8 x y 0x0
  | .orVxVy x y => wordXYN 0x8 x y 0x1
  | .andVxVy x y => wordXYN 0x8 x y 0x2
  | .xorVxVy x y => wordXYN 0x8 x y 0x3
  | .addVxVy x y => wordXYN 0x8 x y 0x4
  | .subVxVy x y => wordXYN 0x8 x y 0x5
  | .shrVx x y => wordXYN 0x8 x y 0x6
  | .subnVxVy x y => wordXYN 0x8 x y 0x7
  | .shlVx x y => wordXYN 0x8 x y 0xE
  | .sneVxVy x y => wordXYN 0x9 x y 0x0
  | .ldINnn nnn => wordNNN 0xA nnn
  | .jpV0Nnn nnn => wordNNN 0xB nnn
  | .rndVxNn x nn => wordXNN 0xC x nn
  | .drwVxVyN x y n => wordXYN 0xD x y (BitVec.ofFin n)
  | .skpVx x => wordXNN 0xE x 0x9E
  | .sknpVx x => wordXNN 0xE x 0xA1
  | .ldVxDt x => wordXNN 0xF x 0x07
  | .ldVxK x => wordXNN 0xF x 0x0A
  | .ldDtVx x => wordXNN 0xF x 0x15
  | .ldStVx x => wordXNN 0xF x 0x18
  | .addIVx x => wordXNN 0xF x 0x1E
  | .ldFVx x => wordXNN 0xF x 0x29
  | .ldBVx x => wordXNN 0xF x 0x33
  | .ldMemVx x => wordXNN 0xF x 0x55
  | .ldVxMem x => wordXNN 0xF x 0x65

/-- The two bytes of a word as memory holds them, the high byte at the lower address (20_memory.md R32). -/
def bytesOfWord (op : Word) : List Byte := [op.extractLsb' 8 8, op.extractLsb' 0 8]

/-- The bytes of an instruction, in address order. -/
def encodeBytes (i : Instr) : List Byte := bytesOfWord (encode i)

/-- The word whose bits are `w`, of which the table gives `nbits` (every bit above them is 0). -/
def tableWord (nbits w : Nat) : Word := BitVec.ofNat 16 (w % 2 ^ nbits)

/-- The instruction the decoder reads from the word that spec/opcode_table.json numbers `w`: the table numbers the
one 16-bit word with bit 0 the least significant, so the word is laid out as its two bytes and decoded. -/
def decodeTableWord (nbits w : Nat) : Option Instr :=
  match decodeBytes (bytesOfWord (tableWord nbits w)) with
  | .ok (i, _) => some i
  | .error _ => none

end Sys2Proof
end

