-- ==== Sys2Proof/Machine/Flow.lean ====
section
/-! DEFINITION. The meanings of 40_flow.md: 00EE, 0NNN, 1NNN, 2NNN, 3XNN, 4XNN, 5XY0, 9XY0, BNNN. -/

namespace Sys2Proof.Machine

/-- 00EE: pop the return address into PC; with an empty stack report STK_UNF (R72). -/
def execRet (s : State) : Host.Outcome State Fault Refusal :=
  .next (popReturn (encode .ret) s)

/-- 0NNN: no-op, and not an unknown opcode (R73). -/
def execSysNnn (_nnn : Addr12) (s : State) : Host.Outcome State Fault Refusal :=
  .next s

/-- 1NNN: `pc <- zext_16(NNN)` (R74). -/
def execJpNnn (nnn : Addr12) (s : State) : Host.Outcome State Fault Refusal :=
  .next (s.setPc (zextAddr nnn))

/-- 2NNN: push PC, `pc <- zext_16(NNN)`; with a full stack report STK_OVF (R75). -/
def execCallNnn (nnn : Addr12) (s : State) : Host.Outcome State Fault Refusal :=
  .next (callTo (encode (.callNnn nnn)) (zextAddr nnn) s)

/-- 3XNN: skip if `V[X] == NN` (R76). -/
def execSeVxNn (x : Nibble) (nn : Byte) (s : State) : Host.Outcome State Fault Refusal :=
  .next (skipIf (s.getV x == nn) s)

/-- 4XNN: skip if `V[X] != NN` (R77). -/
def execSneVxNn (x : Nibble) (nn : Byte) (s : State) : Host.Outcome State Fault Refusal :=
  .next (skipIf (s.getV x != nn) s)

/-- 5XY0: skip if `V[X] == V[Y]` (R78). -/
def execSeVxVy (x y : Nibble) (s : State) : Host.Outcome State Fault Refusal :=
  .next (skipIf (s.getV x == s.getV y) s)

/-- 9XY0: skip if `V[X] != V[Y]` (R79). -/
def execSneVxVy (x y : Nibble) (s : State) : Host.Outcome State Fault Refusal :=
  .next (skipIf (s.getV x != s.getV y) s)

/-- BNNN: `pc <- zext_16(NNN) + zext_16(V[0])`, which cannot exceed 16 bits and is not reduced to 12 (R80). -/
def execJpV0Nnn (nnn : Addr12) (s : State) : Host.Outcome State Fault Refusal :=
  .next (s.setPc (zextAddr nnn + zextByte (s.getV 0)))

end Sys2Proof.Machine
end

