-- ==== Sys2Proof/Machine/Index.lean ====
section
/-! DEFINITION. The meanings of 42_index_memory.md: ANNN, FX1E, FX29, FX33, FX55, FX65. I is changed by the first
three only (R116). -/

namespace Sys2Proof.Machine

/-- ANNN: `I <- zext_16(NNN)` (R110). -/
def execLdINnn (nnn : Addr12) (s : State) : Host.Outcome State Fault Refusal :=
  .next (s.setI (zextAddr nnn))

/-- FX1E: `I <- (I + zext_16(V[X])) mod 2^16`, VF untouched (R111). -/
def execAddIVx (x : Nibble) (s : State) : Host.Outcome State Fault Refusal :=
  .next (s.setI (s.i + zextByte (s.getV x)))

/-- FX29: `I <- zext_16(V[X]) × 5`, no memory access (R112). -/
def execLdFVx (x : Nibble) (s : State) : Host.Outcome State Fault Refusal :=
  .next (s.setI (digitAddr (s.getV x)))

/-- The three writes of FX33, in ascending order (R113), by the instruction at `a`. -/
def storeBcd (a : Word) (vx : Byte) (s : State) : State :=
  memWrite a (dataAddr s 2) (ones vx)
    (memWrite a (dataAddr s 1) (tens vx)
      (memWrite a (dataAddr s 0) (hundreds vx) s))

/-- FX33: the decimal digits of V[X] at I, I + 1, I + 2 (R113). -/
def execLdBVx (x : Nibble) (s : State) : Host.Outcome State Fault Refusal :=
  .next (storeBcd s.instrAddr (s.getV x) s)

/-- One turn of FX55's loop: `MemWrite(I + k, 1, V[k])` (R114). -/
def storeReg (a : Word) (s : State) (k : Nat) : State :=
  memWrite a (dataAddr s k) (s.getV (Fin.ofNat 16 k)) s

/-- FX55's loop over k = 0 to n − 1, ascending (R114). -/
def storeRegs (a : Word) (n : Nat) (s : State) : State := (List.range n).foldl (storeReg a) s

/-- FX55: store V[0] to V[X] at I (R114). -/
def execLdMemVx (x : Nibble) (s : State) : Host.Outcome State Fault Refusal :=
  .next (storeRegs s.instrAddr (x.val + 1) s)

/-- One turn of FX65's loop: `V[k] <- MemRead(I + k, 1)` (R115). -/
def loadReg (a : Word) (s : State) (k : Nat) : State :=
  (memRead a (dataAddr s k) s).2.setV (Fin.ofNat 16 k) (memRead a (dataAddr s k) s).1

/-- FX65's loop over k = 0 to n − 1, ascending (R115). -/
def loadRegs (a : Word) (n : Nat) (s : State) : State := (List.range n).foldl (loadReg a) s

/-- FX65: load V[0] to V[X] from I (R115). -/
def execLdVxMem (x : Nibble) (s : State) : Host.Outcome State Fault Refusal :=
  .next (loadRegs s.instrAddr (x.val + 1) s)

end Sys2Proof.Machine
end

