-- ==== Sys2Proof/Machine/Input.lean ====
section
/-! DEFINITION. The meanings of 44_timers_input.md: FX07, FX15, FX18, EX9E, EXA1, FX0A. -/

namespace Sys2Proof.Machine

/-- FX07: `V[X] <- DT` (R130). -/
def execLdVxDt (x : Nibble) (s : State) : Host.Outcome State Fault Refusal :=
  .next (s.setV x s.dt)

/-- FX15: `DT <- V[X]` (R131). -/
def execLdDtVx (x : Nibble) (s : State) : Host.Outcome State Fault Refusal :=
  .next (s.setDt (s.getV x))

/-- FX18: `ST <- V[X]` (R132). -/
def execLdStVx (x : Nibble) (s : State) : Host.Outcome State Fault Refusal :=
  .next (s.setSt (s.getV x))

/-- EX9E: skip if the key V[X] selects is pressed (R133, R137). -/
def execSkpVx (x : Nibble) (s : State) : Host.Outcome State Fault Refusal :=
  .next (skipIf (s.key (keyIndex (s.getV x))) s)

/-- EXA1: skip if the key V[X] selects is not pressed (R134, R137). -/
def execSknpVx (x : Nibble) (s : State) : Host.Outcome State Fault Refusal :=
  .next (skipIf (!s.key (keyIndex (s.getV x))) s)

/-- FX0A: with no key pressed undo the fetch's advance, so that the same instruction is next; otherwise
`V[X] <- KEYSEL(mask)` and PC stays (R135). -/
def execLdVxK (x : Nibble) (s : State) : Host.Outcome State Fault Refusal :=
  .next (if s.keyMask = 0 then s.setPc s.instrAddr else s.setV x (zextKey (keysel s.keyMask)))

end Sys2Proof.Machine
end

