-- ==== Sys2Proof/Machine/Cycle.lean ====
section
/-! DEFINITION. The instruction cycle: `CpuStep(rnd)` of 40_flow.md R70. -/

namespace Sys2Proof.Machine

/-- The fetch: read the bytes at PC and PC + 1 (the latter not reduced), high byte first, and advance PC by 2
modulo 2^16 (R70; 20_memory.md R32, R35). The word and the state after it. -/
def fetch (s : State) : Word × State :=
  let r0 := memRead s.pc s.pc.toNat s
  let r1 := memRead s.pc (s.pc.toNat + 1) r0.2
  (wordOfBytes r0.1 r1.1, r1.2.setPc (s.pc + 2))

/-- What happens to the fetched word: its instruction runs, or an unknown word is reported as UNK and is otherwise a
no-op (R70; 60_exceptions.md R142). -/
def dispatch (op : Word) (s : State) : Host.Outcome State Fault Refusal :=
  match decode op with
  | some i => exec i s
  | none => .next (report .unk s.instrAddr op s)

/-- A `CpuStep` begins: the `rnd` port carries `rnd` (none: a free value), and the run has started (log 3, log 9). -/
def State.beginCycle (rnd : Option Byte) (s : State) : State := { s with rndPort := rnd, started := true }

/-- `CpuStep(rnd)` (R70). -/
def cpuStep (rnd : Option Byte) (s : State) : Host.Outcome State Fault Refusal :=
  dispatch (fetch (s.beginCycle rnd)).1 (fetch (s.beginCycle rnd)).2

end Sys2Proof.Machine
end

