-- ==== Sys2Proof/Machine/Events.lean ====
section
/-! DEFINITION. The events from outside (00_scope.md R6): reset, load, timer tick, keys, display read, and the
delivery of a tick through TICK_PEND (60_exceptions.md R154). -/

namespace Sys2Proof.Machine

/-- The `Reset` event (70_reset_and_hazards.md R170): every piece of state at its reset value, except that the bytes
outside the font region and the stack entries keep theirs. Unlisting the font region makes it read as FONT. What the
host has still to deliver and the count of random draws are the model's own and stay (log 18). -/
def resetEvent (s : State) : State :=
  { State.reset with
    mem := Memory.unlistBelow 80 s.mem
    stack := s.stack
    schedule := s.schedule
    rndDraws := s.rndDraws }

/-- The `Load(addr, byte)` event: one byte, no range report (20_memory.md R40). It has no move once a `CpuStep` has
occurred since the last `Reset` (R49; log 9). -/
def loadEvent (addr : Addr12) (byte : Byte) (s : State) : Host.Outcome State Fault Refusal :=
  if s.started then .refused .loadDuringRun
  else .next { s with mem := Memory.write s.mem addr.toNat byte }

/-- A timer counts down toward zero and stays there (60_exceptions.md R152). -/
def countDown (t : Byte) : Byte := if 0 < t.toNat then t - 1 else t

/-- The `TimerTick` event: both timers (60_exceptions.md R152). -/
def timerTick (s : State) : State := (s.setDt (countDown s.dt)).setSt (countDown s.st)

/-- A detected edge on the `tick` port (60_exceptions.md R154). -/
def tickEdge (s : State) : State := { s with tickPend := true }

/-- The delivery of a pending tick between two instructions: perform `TimerTick`, clear TICK_PEND
(60_exceptions.md R154). -/
def deliverTick (s : State) : State := { timerTick s with tickPend := false }

/-- One event of 00_scope.md R6, atomic. -/
def applyEvent (e : Event) (s : State) : Host.Outcome State Fault Refusal :=
  match e with
  | .reset => .next (resetEvent s)
  | .load addr byte => loadEvent addr byte s
  | .cpuStep rnd => cpuStep (some rnd) s
  | .timerTick => .next (timerTick s)
  | .keyDown k => .next (s.setKey k true)
  | .keyUp k => .next (s.setKey k false)
  | .displayRead => .next s
  | .tickEdge => .next (tickEdge s)

/-- The `Load` events of a ROM: its bytes verbatim from 0x200 on (20_memory.md R40, 70_reset_and_hazards.md R173).
A ROM of more than 3584 bytes does not fit, and refusing it is the loader's duty (R174). -/
def loadEvents (rom : List Byte) : List Event :=
  rom.mapIdx (fun k b => .load (BitVec.ofNat 12 (0x200 + k)) b)

/-- Take the first event off the schedule. -/
def State.withSchedule (s : State) (es : List Event) : State := { s with schedule := es }

/-- One step: a pending tick is delivered first (60_exceptions.md R154); otherwise the host's next event happens;
with nothing scheduled the CPU runs, its `rnd` free (log 3, log 7, log 8). -/
def stepEvent (s : State) : Host.Outcome State Fault Refusal :=
  if s.tickPend then .next (deliverTick s)
  else
    match s.schedule with
    | [] => cpuStep none s
    | e :: es => applyEvent e (s.withSchedule es)

/-- The two bytes of an instruction word stored where the next `CpuStep` fetches them, with no event and no pending
tick before it (log 12, log 19). -/
def placeWord (op : Word) (s : State) : State :=
  { s with
    mem := Memory.write (Memory.write s.mem (s.pc.toNat % 4096) (op.extractLsb' 8 8))
      ((s.pc.toNat + 1) % 4096) (op.extractLsb' 0 8)
    schedule := []
    tickPend := false }

end Sys2Proof.Machine
end

