-- ==== Sys2Proof/Machine/Step.lean ====
section
/-! DEFINITION. The step of the machine: one atomic event (00_scope.md R6). -/

namespace Sys2Proof.Machine

def step (s : State) : Host.Outcome State Fault Refusal := stepEvent s

/-- `s` with the instruction word stored where `step` fetches its next instruction, and nothing before it (log 12). -/
def State.withFetchWord (s : State) (nbits w : Nat) : State := placeWord (tableWord nbits w) s

end Sys2Proof.Machine
end

