-- ==== Sys2Proof/Machine/Ports.lean ====
section
/-! DEFINITION. The outputs of 00_scope.md R5, as functions of the state, and the customary font of 20_memory.md R39
for statements that take it as a premise. -/

namespace Sys2Proof.Machine

/-- `tone_on`: 1 exactly while ST ≠ 0 (60_exceptions.md R153). -/
def toneOn (s : State) : Bool := s.st != 0

/-- `fb_q`: the pixel at column `x`, row `y` (20_memory.md R48). -/
def fbQ (s : State) (x : Fin 64) (y : Fin 32) : Bool := s.pixel y x

/-- The `fault` port: the sticky register (10_state.md R21). -/
def faultPort (s : State) : BitVec 4 := s.fault

/-- The default digit sprites, digit by digit (20_memory.md R39). The spec offers them as a default only, from
general knowledge: PRESUMED, and nothing in the machine uses them (log 2). -/
def defaultFontRows : List (List Byte) :=
  [ [0xF0, 0x90, 0x90, 0x90, 0xF0],
    [0x20, 0x60, 0x20, 0x20, 0x70],
    [0xF0, 0x10, 0xF0, 0x80, 0xF0],
    [0xF0, 0x10, 0xF0, 0x10, 0xF0],
    [0x90, 0x90, 0xF0, 0x10, 0x10],
    [0xF0, 0x80, 0xF0, 0x10, 0xF0],
    [0xF0, 0x80, 0xF0, 0x90, 0xF0],
    [0xF0, 0x10, 0x20, 0x40, 0x40],
    [0xF0, 0x90, 0xF0, 0x90, 0xF0],
    [0xF0, 0x90, 0xF0, 0x10, 0xF0],
    [0xF0, 0x90, 0xF0, 0x90, 0x90],
    [0xE0, 0x90, 0xE0, 0x90, 0xE0],
    [0xF0, 0x80, 0x80, 0x80, 0xF0],
    [0xE0, 0x90, 0x90, 0x90, 0xE0],
    [0xF0, 0x80, 0xF0, 0x80, 0xF0],
    [0xF0, 0x80, 0xF0, 0x80, 0x80] ]

/-- The byte of the default font at an address 0x000 to 0x04F. -/
def defaultFont (a : Fin 80) : Byte := defaultFontRows.flatten.getD a.val 0

/-- The premise "FONT is the default table" (20_memory.md R39: a claim about drawn digits takes FONT as a premise). -/
def FontIsDefault : Prop := ∀ a : Fin 80, Config.font a = defaultFont a

end Sys2Proof.Machine
end

