-- ==== Sys2Proof/Safety.lean ====
section
/-! DEFINITION. The terms claims are stated in: which run counts as safe, the parts of the state a frame speaks of,
what the next fetch reads, what a sprite covers, and the invariant every step keeps. -/

namespace Sys2Proof.Machine

/-! ## Safe states -/

/-- Every address and opcode so far was one the source fully vouches for (20_memory.md R35, 60_exceptions.md R141: a
claim about a program should take `FAULT` = 0 as part of what it proves, or as a premise). -/
def State.FaultFree (s : State) : Prop := s.fault = 0

/-- Nothing is due before the CPU's next instruction: no pending tick and no scheduled event. -/
def State.Idle (s : State) : Prop := s.tickPend = false ∧ s.schedule = []

/-- The host's next event is `e`, with `es` after it, and no tick is pending. -/
def State.NextEvent (s : State) (e : Event) (es : List Event) : Prop := s.tickPend = false ∧ s.schedule = e :: es

/-! ## Frames -/

/-- The parts of the state a frame speaks of: one register, one pixel, one key or one byte of memory at a time. -/
inductive Part where
  | v (r : Nibble)
  | i
  | pc
  | sp
  | stack (k : Nibble)
  | dt
  | st
  | pixel (y : Fin 32) (x : Fin 64)
  | key (k : Nibble)
  | mem (a : Nat)
  | fault
  | faultEvents
  | tickPend
  | started
  | schedule
  | rndPort
  | rndDraws
deriving DecidableEq, Repr

/-- The part holds in `t` what it holds in `s`; a byte of memory is compared by reading it. -/
def Part.Same (s t : State) : Part → Prop
  | .v r => t.getV r = s.getV r
  | .i => t.i = s.i
  | .pc => t.pc = s.pc
  | .sp => t.sp = s.sp
  | .stack k => t.stack[k.val] = s.stack[k.val]
  | .dt => t.dt = s.dt
  | .st => t.st = s.st
  | .pixel y x => t.pixel y x = s.pixel y x
  | .key k => t.key k = s.key k
  | .mem a => Memory.read t.mem a = Memory.read s.mem a
  | .fault => t.fault = s.fault
  | .faultEvents => t.faultEvents = s.faultEvents
  | .tickPend => t.tickPend = s.tickPend
  | .started => t.started = s.started
  | .schedule => t.schedule = s.schedule
  | .rndPort => t.rndPort = s.rndPort
  | .rndDraws => t.rndDraws = s.rndDraws

/-- Every part of the state outside `written` is unchanged from `s` to `t`. -/
def FrameExcept (written : Part → Prop) (s t : State) : Prop := ∀ p : Part, ¬ written p → p.Same s t

/-- The memory addresses of the first `n` bytes at I, after the range policy (20_memory.md R35). -/
def State.IsDataByte (s : State) (n : Nat) (a : Nat) : Prop := ∃ k, k < n ∧ a = dataAddr s k % 4096

/-- The parts an instruction may write beyond the fetch, by the access matrix of 10_state.md R26 (a read of memory
writes FAULT when it is out of range); `s` is the state the instruction runs in. The count of random draws is the
model's own (log 3). -/
def writes (s : State) : Instr → Part → Prop
  | .cls, p => ∃ y x, p = .pixel y x
  | .ret, p => p = .pc ∨ p = .sp ∨ p = .fault ∨ p = .faultEvents
  | .sysNnn _, _ => False
  | .jpNnn _, p => p = .pc
  | .callNnn _, p => p = .pc ∨ p = .sp ∨ (∃ k, k.val = s.sp.val ∧ p = .stack k) ∨ p = .fault ∨ p = .faultEvents
  | .seVxNn _ _, p => p = .pc
  | .sneVxNn _ _, p => p = .pc
  | .seVxVy _ _, p => p = .pc
  | .sneVxVy _ _, p => p = .pc
  | .ldVxNn x _, p => p = .v x
  | .addVxNn x _, p => p = .v x
  | .ldVxVy x _, p => p = .v x
  | .orVxVy x _, p => p = .v x
  | .andVxVy x _, p => p = .v x
  | .xorVxVy x _, p => p = .v x
  | .addVxVy x _, p => p = .v x ∨ p = .v 15
  | .subVxVy x _, p => p = .v x ∨ p = .v 15
  | .shrVx x _, p => p = .v x ∨ p = .v 15
  | .subnVxVy x _, p => p = .v x ∨ p = .v 15
  | .shlVx x _, p => p = .v x ∨ p = .v 15
  | .ldINnn _, p => p = .i
  | .jpV0Nnn _, p => p = .pc
  | .rndVxNn x _, p => p = .v x ∨ p = .rndDraws
  | .drwVxVyN _ _ _, p => (∃ y x, p = .pixel y x) ∨ p = .v 15 ∨ p = .fault ∨ p = .faultEvents
  | .skpVx _, p => p = .pc
  | .sknpVx _, p => p = .pc
  | .ldVxDt x, p => p = .v x
  | .ldVxK x, p => p = .v x ∨ p = .pc
  | .ldDtVx _, p => p = .dt
  | .ldStVx _, p => p = .st
  | .addIVx _, p => p = .i
  | .ldFVx _, p => p = .i
  | .ldBVx _, p => (∃ a, s.IsDataByte 3 a ∧ p = .mem a) ∨ p = .fault ∨ p = .faultEvents
  | .ldMemVx x, p => (∃ a, s.IsDataByte (x.val + 1) a ∧ p = .mem a) ∨ p = .fault ∨ p = .faultEvents
  | .ldVxMem x, p => (∃ r : Nibble, r ≤ x ∧ p = .v r) ∨ p = .fault ∨ p = .faultEvents

/-! ## What is reported, what is fetched -/

/-- The ADDR events of `n` byte accesses from effective address `ea` on, ascending, by the instruction at `a`
(20_memory.md R35, 60_exceptions.md R145, R148). -/
def rangeEvents (a : Word) (ea n : Nat) : List FaultEvent :=
  ((List.range n).filter (fun k => 0xFFF < ea + k)).map
    (fun k => { code := .addr, pc := a, info := BitVec.ofNat 16 (ea + k) })

/-- FAULT after a list of events: each sets its own bit, no bit is cleared (10_state.md R21, 60_exceptions.md R141). -/
def faultAfter (f : BitVec 4) (es : List FaultEvent) : BitVec 4 :=
  es.foldl (fun g e => g ||| BitVec.twoPow 4 e.code.bit.val) f

/-- From `s` to `t` exactly the events `es` were reported (60_exceptions.md R141). -/
def Reports (s t : State) (es : List FaultEvent) : Prop :=
  t.faultEvents = s.faultEvents ++ es ∧ t.fault = faultAfter s.fault es

/-- The word the next fetch reads: the bytes at PC and PC + 1 after the range policy, big-endian (40_flow.md R70). -/
def State.fetchedWord (s : State) : Word :=
  wordOfBytes (Memory.read s.mem (s.pc.toNat % 4096)) (Memory.read s.mem ((s.pc.toNat + 1) % 4096))

/-- The state after the fetch, in which the instruction runs: PC advanced by 2 modulo 2^16, out-of-range bytes
reported, nothing else of the spec's state changed (40_flow.md R70). The port carries `rnd`. -/
def State.afterFetch (s : State) (rnd : Option Byte) : State :=
  { s with
    pc := s.pc + 2
    faultEvents := s.faultEvents ++ rangeEvents s.pc s.pc.toNat 2
    fault := faultAfter s.fault (rangeEvents s.pc s.pc.toNat 2)
    started := true
    rndPort := rnd }

/-- The program has stopped: PC is at a 1NNN that jumps to itself (70_reset_and_hazards.md R175, D25). -/
def State.Stopped (s : State) : Prop := s.pc.toNat ≤ 0xFFE ∧ s.fetchedWord = 0x1000#16 ||| s.pc

/-! ## What a sprite covers -/

/-- A set bit of the `n`-row sprite at I, drawn at `(x0, y0)`, falls on pixel `(x, y)`: bit 7 of a row byte is column
0 (43_display.md R122, R123). -/
def State.SpriteCovers (s : State) (x0 y0 : Byte) (n : Nat) (y : Fin 32) (x : Fin 64) : Prop :=
  ∃ row column : Nat, row < n ∧ column < 8 ∧ y.val = (y0.toNat + row) % 32 ∧ x.val = (x0.toNat + column) % 64 ∧
    (Memory.read s.mem (dataAddr s row % 4096)).getLsbD (7 - column) = true

/-! ## The invariant -/

/-- The event's `info` is one that its code records (60_exceptions.md R140): an unknown word, a 2NNN word, the word
0x00EE, or `ea mod 2^16` of an address above 0xFFF (at most 0xFFFF + 15). -/
def FaultEvent.Ok (e : FaultEvent) : Prop :=
  match e.code with
  | .unk => decode e.info = none
  | .stkOvf => ∃ nnn, e.info = encode (.callNnn nnn)
  | .stkUnf => e.info = encode .ret
  | .addr => 0xFFF < e.info.toNat ∨ e.info.toNat < 15

/-- What every step keeps: memory is in its canonical form; FAULT is the summary of the fault events, bit by bit;
every event's info is of its code's kind; and no fault event stands before the first `CpuStep` since the last `Reset`
(60_exceptions.md R140, R141). -/
def Inv (s : State) : Prop :=
  Memory.wf s.mem ∧
  (∀ c : FaultCode, s.fault.getLsbD c.bit.val = s.faultEvents.any (fun e => e.code == c)) ∧
  (∀ e ∈ s.faultEvents, e.Ok) ∧
  (s.started = false → s.faultEvents = [])

end Sys2Proof.Machine
end

