-- ==== Sys2Proof/Certificates/Slice0/Obligations.lean ====
section
/-! DEFINITION. The statements for the provers. A statement about `exec` speaks of the state after the fetch, in which
PC is already the address of the following instruction (40_flow.md R70); `StepRunsDecodedInstruction` and
`UnknownWordReportsAndContinues` join it to a step. Where a docstring names a decision D<n>, the clause is the spec's
own choice (92_eei_decisions.md) and not the source's. -/

open Sys2Proof Sys2Proof.Machine

/-! ## Encoding -/

/-- Decoding the word of a well-formed instruction gives it back, every operand at every value its field admits
(30_encoding.md R51, R54, R55, R56). -/
def Obligations.DecodeOfEncodeIsIdentity : Prop :=
  ∀ i : Instr, i.wf = true → decode (encode i) = some i

/-- A word that decodes to an instruction is the word of that instruction, and the instruction is well-formed: each
word has one meaning (30_encoding.md R54, R55, R56). -/
def Obligations.EncodeOfDecodeIsIdentity : Prop :=
  ∀ (op : Word) (i : Instr), decode op = some i → encode i = op ∧ i.wf = true

/-- The bytes of an instruction, high byte first, decode to it and leave the bytes after it (20_memory.md R32,
30_encoding.md R50). -/
def Obligations.BytesDecodeBigEndian : Prop :=
  ∀ (i : Instr) (rest : List Byte), i.wf = true →
    decodeBytes ((encode i).extractLsb' 8 8 :: (encode i).extractLsb' 0 8 :: rest) = .ok (i, rest)

/-- The unknown words are exactly those of the table of 30_encoding.md R57 (families 5 and 9: decision D26). -/
def Obligations.UnknownWordsAreThoseListed : Prop :=
  ∀ op : Word, decode op = none ↔
    (fieldT op = 0x5#4 ∧ fieldN op ≠ 0) ∨
    (fieldT op = 0x8#4 ∧ (fieldN op).val ∈ [0x8, 0x9, 0xA, 0xB, 0xC, 0xD, 0xF]) ∨
    (fieldT op = 0x9#4 ∧ fieldN op ≠ 0) ∨
    (fieldT op = 0xE#4 ∧ (fieldNN op).toNat ∉ [0x9E, 0xA1]) ∨
    (fieldT op = 0xF#4 ∧ (fieldNN op).toNat ∉ [0x07, 0x0A, 0x15, 0x18, 0x1E, 0x29, 0x33, 0x55, 0x65])

/-- Words written out from the patterns of 30_encoding.md R55 decode to the instructions they stand for, one of each
format, with the two fixed words of family 0, and an unknown word: that 0x5AB1 is unknown is decision D26 (R57). -/
def Obligations.SampleWordsDecode : Prop :=
  decode 0x00E0#16 = some .cls ∧ decode 0x00EE#16 = some .ret ∧ decode 0x01E0#16 = some (.sysNnn 0x1E0#12) ∧
  decode 0x2ABC#16 = some (.callNnn 0xABC#12) ∧ decode 0x332A#16 = some (.seVxNn 3 0x2A#8) ∧
  decode 0x8AB5#16 = some (.subVxVy 10 11) ∧ decode 0xD12F#16 = some (.drwVxVyN 1 2 15) ∧
  decode 0xE39E#16 = some (.skpVx 3) ∧ decode 0xF465#16 = some (.ldVxMem 4) ∧ decode 0x5AB1#16 = none

/-! ## Reset, load, boot -/

/-- Reset leaves the values of the table of 10_state.md R25: V, I, SP, DT, ST, KEYS and FB zero or off, PC = 0x200,
the font region FONT, every other byte MEM0 (D21), FAULT (D9) and TICK_PEND (D19) zero. -/
def Obligations.ResetStateHoldsResetValues : Prop :=
  (∀ r, State.reset.getV r = 0) ∧ State.reset.i = 0 ∧ State.reset.pc = 0x0200#16 ∧ State.reset.sp = 0 ∧
  State.reset.dt = 0 ∧ State.reset.st = 0 ∧ toneOn State.reset = false ∧
  (∀ y x, State.reset.pixel y x = false) ∧ (∀ k, State.reset.key k = false) ∧
  (∀ a : Fin 80, Memory.read State.reset.mem a.val = Config.font a) ∧
  (∀ a, 80 ≤ a → Memory.read State.reset.mem a = Config.mem0 a) ∧
  State.reset.fault = 0 ∧ State.reset.tickPend = false

/-- The `Reset` event, in any state: the values of 70_reset_and_hazards.md R170, the font rewritten, the bytes outside
the font region and the stack entries kept (R171, D21), FAULT (D9) and TICK_PEND (D19) cleared. The model's own fields
are its own choice: the fault events start again empty (log 10), no `CpuStep` has occurred since, so that `Load` has
its move again (20_memory.md R49, D22; log 9), the `rnd` port carries nothing (log 3), and the events still to be
delivered and the count of draws are kept (log 7, log 18). -/
def Obligations.ResetEventRestoresResetValues : Prop :=
  ∀ (s : State) (es : List Event), s.NextEvent .reset es →
    ∃ t, step s = .next t ∧
      (∀ r, t.getV r = 0) ∧ t.i = 0 ∧ t.pc = 0x0200#16 ∧ t.sp = 0 ∧ t.dt = 0 ∧ t.st = 0 ∧
      (∀ y x, t.pixel y x = false) ∧ (∀ k, t.key k = false) ∧
      (∀ a : Fin 80, Memory.read t.mem a.val = Config.font a) ∧
      (∀ a, 80 ≤ a → Memory.read t.mem a = Memory.read s.mem a) ∧
      t.stack = s.stack ∧ t.fault = 0 ∧ t.tickPend = false ∧ t.faultEvents = [] ∧ t.started = false ∧
      t.rndPort = none ∧ t.rndDraws = s.rndDraws ∧ t.schedule = es

/-- `Load(addr, byte)` before the first `CpuStep` writes one byte and nothing else; after it, it has no move
(20_memory.md R40, R49, D22). That "no move" is a refusal is the model's choice (log 9), and so is the schedule, which
loses the event (log 7). -/
def Obligations.LoadWritesOneByteBeforeTheRun : Prop :=
  ∀ (s : State) (a : Addr12) (b : Byte) (es : List Event), s.NextEvent (.load a b) es →
    (s.started = false →
      ∃ t, step s = .next t ∧ Memory.read t.mem a.toNat = b ∧ t.schedule = es ∧
        FrameExcept (fun p => p = .mem a.toNat ∨ p = .schedule) s t) ∧
    (s.started = true → step s = .refused .loadDuringRun)

/-- A ROM of at most 3584 bytes, loaded by its `Load` events, stands verbatim from 0x200 on, and nothing else has
changed (20_memory.md R40, 70_reset_and_hazards.md R173, R174, D22). The schedule, which loses the `Load` events, is the
model's choice (log 7). -/
def Obligations.RomIsLoadedVerbatim : Prop :=
  ∀ (s : State) (rom : List Byte) (es : List Event),
    rom.length ≤ 3584 → s.started = false → s.tickPend = false → s.schedule = loadEvents rom ++ es →
    ∃ t, Sys2Proof.core.run rom.length s = .next t ∧ t.schedule = es ∧
      (∀ (k : Nat) (h : k < rom.length), Memory.read t.mem (0x200 + k) = rom[k]) ∧
      FrameExcept (fun p => (∃ k, k < rom.length ∧ p = .mem (0x200 + k)) ∨ p = .schedule) s t

/-! ## The step -/

/-- When the word at PC decodes to an instruction, a step is that instruction's meaning in the state after the fetch:
both for the free-running CPU (its `rnd` free) and for a `CpuStep(rnd)` the host schedules (40_flow.md R70; bytes out
of range are reported and read modulo 4096, decision D3). The schedule is the model's choice (log 7), and so are
`started` and `rndPort` in the state after the fetch (log 9, log 3). -/
def Obligations.StepRunsDecodedInstruction : Prop :=
  ∀ (s : State) (i : Instr), decode s.fetchedWord = some i →
    (s.Idle → step s = exec i (s.afterFetch none)) ∧
    (∀ rnd es, s.NextEvent (.cpuStep rnd) es → step s = exec i ((s.withSchedule es).afterFetch (some rnd)))

/-- An unknown word reports UNK with the word as info after whatever the fetch reported, and is otherwise a no-op: PC
past it, nothing else of the spec's state changed; both for the free-running CPU and for a `CpuStep(rnd)` the host
schedules (40_flow.md R70; 60_exceptions.md R142, D5; the fetch's reports: D3, D4; FAULT and its events: D9). Of the
model's own fields, `started` is set (log 9), `rndPort` holds what the step drives (log 3), and a scheduled event leaves
the schedule (log 7): the model's choices. -/
def Obligations.UnknownWordReportsAndContinues : Prop :=
  ∀ s : State, decode s.fetchedWord = none →
    (s.Idle → ∃ t, step s = .next t ∧ t.pc = s.pc + 2 ∧ t.started = true ∧ t.rndPort = none ∧
      Reports s t (rangeEvents s.pc s.pc.toNat 2 ++ [{ code := .unk, pc := s.pc, info := s.fetchedWord }]) ∧
      FrameExcept (fun p => p = .pc ∨ p = .fault ∨ p = .faultEvents ∨ p = .started ∨ p = .rndPort) s t) ∧
    (∀ rnd es, s.NextEvent (.cpuStep rnd) es →
      ∃ t, step s = .next t ∧ t.pc = s.pc + 2 ∧ t.started = true ∧ t.rndPort = some rnd ∧ t.schedule = es ∧
        Reports s t (rangeEvents s.pc s.pc.toNat 2 ++ [{ code := .unk, pc := s.pc, info := s.fetchedWord }]) ∧
        FrameExcept (fun p => p = .pc ∨ p = .fault ∨ p = .faultEvents ∨ p = .started ∨ p = .rndPort ∨ p = .schedule) s t)

/-- `TimerTick` takes one from DT and from ST where they are above zero, and touches nothing else (60_exceptions.md
R152). The schedule, which loses the event, is the model's choice (log 7). -/
def Obligations.TimerTickCountsBothTimersDown : Prop :=
  ∀ (s : State) (es : List Event), s.NextEvent .timerTick es →
    ∃ t, step s = .next t ∧
      t.dt.toNat = (if 0 < s.dt.toNat then s.dt.toNat - 1 else 0) ∧
      t.st.toNat = (if 0 < s.st.toNat then s.st.toNat - 1 else 0) ∧
      t.schedule = es ∧ FrameExcept (fun p => p = .dt ∨ p = .st ∨ p = .schedule) s t

/-- n ticks take n from each timer, down to zero and no further (60_exceptions.md R152, and the source's example of
ten ticks and an eleventh, spec/95_test_vectors.md S5). The schedule, which loses the n events, is the model's choice
(log 7). -/
def Obligations.TicksCountTimersToZero : Prop :=
  ∀ (n : Nat) (s : State) (es : List Event),
    s.tickPend = false → s.schedule = List.replicate n .timerTick ++ es →
    ∃ t, Sys2Proof.core.run n s = .next t ∧
      t.dt.toNat = s.dt.toNat - n ∧ t.st.toNat = s.st.toNat - n ∧
      t.schedule = es ∧ FrameExcept (fun p => p = .dt ∨ p = .st ∨ p = .schedule) s t

/-- An edge on the `tick` port sets TICK_PEND, and the next step, before any other event, performs `TimerTick` and
clears it: the two steps together are the one atomic event (60_exceptions.md R154, D19). That the edge is an event of
its own, delivered by the very next step, and the schedule, which loses it, are the model's choices (log 8, log 7). -/
def Obligations.TickEdgeIsDeliveredAsOneTick : Prop :=
  ∀ (s : State) (es : List Event), s.NextEvent .tickEdge es →
    (∃ u, step s = .next u ∧ u.tickPend = true ∧ FrameExcept (fun p => p = .tickPend ∨ p = .schedule) s u) ∧
    Sys2Proof.core.run 2 s = step (s.withSchedule (.timerTick :: es))

/-- `KeyDown(k)` sets and `KeyUp(k)` clears the bit of key k, whatever it was, and nothing else (60_exceptions.md
R155). `DisplayRead` changes no state, and `fb_q` at column x and row y is the pixel there, read after the event as
before it (20_memory.md R48, D23). The schedule, which loses the event, is the model's choice (log 7). -/
def Obligations.KeyEventsSetAndClearTheLatchAndDisplayReadOnlyReads : Prop :=
  ∀ (s : State) (k : Nibble) (es : List Event),
    (s.NextEvent (.keyDown k) es →
      ∃ t, step s = .next t ∧ t.key k = true ∧ t.schedule = es ∧
        FrameExcept (fun p => p = .key k ∨ p = .schedule) s t) ∧
    (s.NextEvent (.keyUp k) es →
      ∃ t, step s = .next t ∧ t.key k = false ∧ t.schedule = es ∧
        FrameExcept (fun p => p = .key k ∨ p = .schedule) s t) ∧
    (s.NextEvent .displayRead es →
      step s = .next (s.withSchedule es) ∧ ∀ x y, fbQ (s.withSchedule es) x y = (s.fb[y.val])[x.val])

/-- No step stops: every state has a next state, but for a `Load` the host issues during a run (60_exceptions.md R141
to R149: faults are reported and execution continues; 20_memory.md R49). -/
def Obligations.OnlyLoadDuringRunStops : Prop :=
  ∀ s : State,
    (∃ t, step s = .next t) ∨
    (step s = .refused .loadDuringRun ∧ s.started = true ∧ ∃ a b es, s.NextEvent (.load a b) es)

/-- Where the program has stopped, at a 1NNN that jumps to itself, a `CpuStep` leaves the whole state as it was (the
model's own `started` and `rndPort` aside, log 9 and log 3) (70_reset_and_hazards.md R175, D25). -/
def Obligations.StoppedProgramStays : Prop :=
  ∀ s : State, s.Idle → s.Stopped → step s = .next { s with started := true, rndPort := none }

/-! ## Loads, arithmetic and logic on V registers -/

/-- 6XNN: VX = NN (41_alu.md R92). -/
def Obligations.LoadImmediateWritesVx : Prop :=
  ∀ (x : Nibble) (nn : Byte) (s : State), ∃ t, exec (.ldVxNn x nn) s = .next t ∧
    t.getV x = nn ∧ FrameExcept (fun p => p = .v x) s t

/-- 7XNN: VX = (VX + NN) mod 256, and VF is not written unless it is VX (41_alu.md R93). -/
def Obligations.AddImmediateWrapsWithoutFlag : Prop :=
  ∀ (x : Nibble) (nn : Byte) (s : State), ∃ t, exec (.addVxNn x nn) s = .next t ∧
    (t.getV x).toNat = ((s.getV x).toNat + nn.toNat) % 256 ∧ FrameExcept (fun p => p = .v x) s t

/-- 8XY0: VX = VY (41_alu.md R94). -/
def Obligations.MoveCopiesVyToVx : Prop :=
  ∀ (x y : Nibble) (s : State), ∃ t, exec (.ldVxVy x y) s = .next t ∧
    t.getV x = s.getV y ∧ FrameExcept (fun p => p = .v x) s t

/-- 8XY1, 8XY2, 8XY3: the bitwise operation on all eight bits; VF is not written unless it is VX (41_alu.md R95, R96,
R97; that VF is unchanged is decision D13). -/
def Obligations.LogicOperationsActBitwise : Prop :=
  ∀ (x y : Nibble) (s : State),
    (∃ t, exec (.orVxVy x y) s = .next t ∧
      (∀ b, b < 8 → (t.getV x).getLsbD b = ((s.getV x).getLsbD b || (s.getV y).getLsbD b)) ∧
      FrameExcept (fun p => p = .v x) s t) ∧
    (∃ t, exec (.andVxVy x y) s = .next t ∧
      (∀ b, b < 8 → (t.getV x).getLsbD b = ((s.getV x).getLsbD b && (s.getV y).getLsbD b)) ∧
      FrameExcept (fun p => p = .v x) s t) ∧
    (∃ t, exec (.xorVxVy x y) s = .next t ∧
      (∀ b, b < 8 → (t.getV x).getLsbD b = ((s.getV x).getLsbD b ^^ (s.getV y).getLsbD b)) ∧
      FrameExcept (fun p => p = .v x) s t)

/-- 8XY4: VX = (VX + VY) mod 256 and VF = 1 exactly when the sum exceeds 255, both from the operands before the
instruction; with X = 15 the flag is what remains (41_alu.md R98, R91, D10). -/
def Obligations.AddSetsCarry : Prop :=
  ∀ (x y : Nibble) (s : State), ∃ t, exec (.addVxVy x y) s = .next t ∧
    (x ≠ 15 → (t.getV x).toNat = ((s.getV x).toNat + (s.getV y).toNat) % 256) ∧
    t.getV 15 = (if 255 < (s.getV x).toNat + (s.getV y).toNat then 1 else 0) ∧
    FrameExcept (fun p => p = .v x ∨ p = .v 15) s t

/-- 8XY5: VX = (VX − VY) mod 256 and VF = 1 exactly when VX ≥ VY, from the operands before the instruction; with
X = 15 the flag is what remains (41_alu.md R99, R91, D10). -/
def Obligations.SubSetsNotBorrow : Prop :=
  ∀ (x y : Nibble) (s : State), ∃ t, exec (.subVxVy x y) s = .next t ∧
    (x ≠ 15 → (t.getV x).toNat = ((s.getV x).toNat + 256 - (s.getV y).toNat) % 256) ∧
    t.getV 15 = (if (s.getV y).toNat ≤ (s.getV x).toNat then 1 else 0) ∧
    FrameExcept (fun p => p = .v x ∨ p = .v 15) s t

/-- 8XY7: VX = (VY − VX) mod 256 and VF = 1 exactly when VY ≥ VX, from the operands before the instruction; with
X = 15 the flag is what remains (41_alu.md R101, R91, D10). -/
def Obligations.SubnSetsNotBorrow : Prop :=
  ∀ (x y : Nibble) (s : State), ∃ t, exec (.subnVxVy x y) s = .next t ∧
    (x ≠ 15 → (t.getV x).toNat = ((s.getV y).toNat + 256 - (s.getV x).toNat) % 256) ∧
    t.getV 15 = (if (s.getV x).toNat ≤ (s.getV y).toNat then 1 else 0) ∧
    FrameExcept (fun p => p = .v x ∨ p = .v 15) s t

/-- 8XY6: VX = VX div 2 and VF = bit 0 of VX before the shift, whatever Y is; with X = 15 the flag is what remains
(41_alu.md R100, R91, D10, D13). -/
def Obligations.ShiftRightMovesLowBitToVf : Prop :=
  ∀ (x y : Nibble) (s : State), ∃ t, exec (.shrVx x y) s = .next t ∧
    (x ≠ 15 → (t.getV x).toNat = (s.getV x).toNat / 2) ∧
    (t.getV 15).toNat = (s.getV x).toNat % 2 ∧
    FrameExcept (fun p => p = .v x ∨ p = .v 15) s t

/-- 8XYE: VX = (VX × 2) mod 256 and VF = bit 7 of VX before the shift, whatever Y is; with X = 15 the flag is what
remains (41_alu.md R102, R91, D10, D13). -/
def Obligations.ShiftLeftMovesHighBitToVf : Prop :=
  ∀ (x y : Nibble) (s : State), ∃ t, exec (.shlVx x y) s = .next t ∧
    (x ≠ 15 → (t.getV x).toNat = (s.getV x).toNat * 2 % 256) ∧
    (t.getV 15).toNat = (s.getV x).toNat / 128 ∧
    FrameExcept (fun p => p = .v x ∨ p = .v 15) s t

/-- CXNN: VX is the random byte masked by NN, for every random byte: the one on the port where the host drives it, the
free value of the next draw otherwise; so VX ≤ NN (41_alu.md R103, D16; the draw count is the model's, log 3). -/
def Obligations.RandomByteIsMasked : Prop :=
  ∀ (x : Nibble) (nn : Byte) (s : State), ∃ t, exec (.rndVxNn x nn) s = .next t ∧
    (∀ r, s.rndPort = some r → t.getV x = r &&& nn) ∧
    (s.rndPort = none → t.getV x = Config.rnd s.rndDraws &&& nn) ∧
    (t.getV x).toNat ≤ nn.toNat ∧ t.rndDraws = s.rndDraws + 1 ∧
    FrameExcept (fun p => p = .v x ∨ p = .rndDraws) s t

/-! ## Flow of control -/

/-- 00EE with entries on the stack pops the top one into PC, all 16 bits (40_flow.md R72). -/
def Obligations.ReturnPopsTopEntry : Prop :=
  ∀ s : State, 0 < s.sp.val → ∃ t, exec .ret s = .next t ∧
    t.sp.val + 1 = s.sp.val ∧ (∀ k : Nibble, k.val + 1 = s.sp.val → t.pc = s.stack[k.val]) ∧
    FrameExcept (fun p => p = .pc ∨ p = .sp) s t

/-- 00EE with an empty stack reports STK_UNF with the word 0x00EE and does nothing else (40_flow.md R72,
60_exceptions.md R144, D8). -/
def Obligations.ReturnOnEmptyStackReports : Prop :=
  ∀ s : State, s.sp = 0 → ∃ t, exec .ret s = .next t ∧
    Reports s t [{ code := .stkUnf, pc := s.pc - 2, info := 0x00EE#16 }] ∧
    FrameExcept (fun p => p = .fault ∨ p = .faultEvents) s t

/-- 0NNN is a no-op and reports nothing (40_flow.md R73). -/
def Obligations.SysIsNoOp : Prop := ∀ (nnn : Addr12) (s : State), exec (.sysNnn nnn) s = .next s

/-- 1NNN: PC = NNN (40_flow.md R74). -/
def Obligations.JumpSetsPc : Prop :=
  ∀ (nnn : Addr12) (s : State), ∃ t, exec (.jpNnn nnn) s = .next t ∧
    t.pc.toNat = nnn.toNat ∧ FrameExcept (fun p => p = .pc) s t

/-- 2NNN with fewer than 16 entries pushes PC, the address of the instruction after the call, and goes to NNN
(40_flow.md R75; 16 entries: decision D6). -/
def Obligations.CallPushesReturnAddress : Prop :=
  ∀ (nnn : Addr12) (s : State), s.sp.val < 16 → ∃ t, exec (.callNnn nnn) s = .next t ∧
    t.pc.toNat = nnn.toNat ∧ t.sp.val = s.sp.val + 1 ∧
    (∀ k : Nibble, k.val = s.sp.val → t.stack[k.val] = s.pc) ∧
    FrameExcept (fun p => p = .pc ∨ p = .sp ∨ ∃ k, k.val = s.sp.val ∧ p = .stack k) s t

/-- 2NNN with 16 entries reports STK_OVF with its own word and does nothing else: no push, no jump (40_flow.md R75,
60_exceptions.md R143, D7). -/
def Obligations.CallOnFullStackReports : Prop :=
  ∀ (nnn : Addr12) (s : State), s.sp.val = 16 → ∃ t, exec (.callNnn nnn) s = .next t ∧
    Reports s t [{ code := .stkOvf, pc := s.pc - 2, info := 0x2000#16 ||| nnn.setWidth 16 }] ∧
    FrameExcept (fun p => p = .fault ∨ p = .faultEvents) s t

/-- A call followed by a return, wherever the subroutine's PC then is, comes back to the instruction after the call
with the stack as deep as before (40_flow.md R75, R72, and the source's property quoted in R75). -/
def Obligations.CallThenReturnComesBack : Prop :=
  ∀ (nnn : Addr12) (w : Word) (s : State), s.sp.val < 16 →
    ∃ t u, exec (.callNnn nnn) s = .next t ∧ exec .ret (t.setPc w) = .next u ∧ u.pc = s.pc ∧ u.sp = s.sp

/-- 3XNN: skip exactly when VX = NN (40_flow.md R76, R71; the wrap of PC: decision D12). -/
def Obligations.SkipIfEqualImmediate : Prop :=
  ∀ (x : Nibble) (nn : Byte) (s : State), ∃ t, exec (.seVxNn x nn) s = .next t ∧
    t.pc = (if s.getV x = nn then s.pc + 2 else s.pc) ∧ FrameExcept (fun p => p = .pc) s t

/-- 4XNN: skip exactly when VX ≠ NN (40_flow.md R77, R71; the wrap of PC: decision D12). -/
def Obligations.SkipIfNotEqualImmediate : Prop :=
  ∀ (x : Nibble) (nn : Byte) (s : State), ∃ t, exec (.sneVxNn x nn) s = .next t ∧
    t.pc = (if s.getV x = nn then s.pc else s.pc + 2) ∧ FrameExcept (fun p => p = .pc) s t

/-- 5XY0: skip exactly when VX = VY (40_flow.md R78, R71; the wrap of PC: decision D12). -/
def Obligations.SkipIfRegistersEqual : Prop :=
  ∀ (x y : Nibble) (s : State), ∃ t, exec (.seVxVy x y) s = .next t ∧
    t.pc = (if s.getV x = s.getV y then s.pc + 2 else s.pc) ∧ FrameExcept (fun p => p = .pc) s t

/-- 9XY0: skip exactly when VX ≠ VY (40_flow.md R79, R71; the wrap of PC: decision D12). -/
def Obligations.SkipIfRegistersDiffer : Prop :=
  ∀ (x y : Nibble) (s : State), ∃ t, exec (.sneVxVy x y) s = .next t ∧
    t.pc = (if s.getV x = s.getV y then s.pc else s.pc + 2) ∧ FrameExcept (fun p => p = .pc) s t

/-- BNNN: PC = NNN + V0, always V0, not reduced (40_flow.md R80). -/
def Obligations.JumpIndexedAddsV0 : Prop :=
  ∀ (nnn : Addr12) (s : State), ∃ t, exec (.jpV0Nnn nnn) s = .next t ∧
    t.pc.toNat = nnn.toNat + (s.getV 0).toNat ∧ FrameExcept (fun p => p = .pc) s t

/-! ## The index register and memory -/

/-- ANNN: I = NNN (42_index_memory.md R110). -/
def Obligations.LoadIndexSetsI : Prop :=
  ∀ (nnn : Addr12) (s : State), ∃ t, exec (.ldINnn nnn) s = .next t ∧
    t.i.toNat = nnn.toNat ∧ FrameExcept (fun p => p = .i) s t

/-- FX1E: I = (I + VX) mod 65536, not reduced to 12 bits, VF not written (42_index_memory.md R111, D12, D13). -/
def Obligations.AddToIndexWrapsAt16Bits : Prop :=
  ∀ (x : Nibble) (s : State), ∃ t, exec (.addIVx x) s = .next t ∧
    t.i.toNat = (s.i.toNat + (s.getV x).toNat) % 65536 ∧ FrameExcept (fun p => p = .i) s t

/-- FX29: I = VX × 5, the whole 8-bit VX, and no memory access (42_index_memory.md R112). -/
def Obligations.DigitSpriteAddressIsFiveTimesVx : Prop :=
  ∀ (x : Nibble) (s : State), ∃ t, exec (.ldFVx x) s = .next t ∧
    t.i.toNat = (s.getV x).toNat * 5 ∧ FrameExcept (fun p => p = .i) s t

/-- FX33: the hundreds, tens and ones digits of VX, each 0 to 9, stand at I, I + 1, I + 2; no other byte changes, I is
kept, and each address above 0xFFF is reported and wraps (42_index_memory.md R113, R116; 20_memory.md R35, D3). -/
def Obligations.BcdStoresThreeDigits : Prop :=
  ∀ (x : Nibble) (s : State), ∃ t, exec (.ldBVx x) s = .next t ∧
    (∃ h d o : Nat, h ≤ 9 ∧ d ≤ 9 ∧ o ≤ 9 ∧ (s.getV x).toNat = 100 * h + 10 * d + o ∧
      (Memory.read t.mem (dataAddr s 0 % 4096)).toNat = h ∧
      (Memory.read t.mem (dataAddr s 1 % 4096)).toNat = d ∧
      (Memory.read t.mem (dataAddr s 2 % 4096)).toNat = o) ∧
    Reports s t (rangeEvents (s.pc - 2) s.i.toNat 3) ∧
    FrameExcept (fun p => (∃ a, s.IsDataByte 3 a ∧ p = .mem a) ∨ p = .fault ∨ p = .faultEvents) s t

/-- FX55: V0 to VX stand at I to I + X; no other byte changes, I and the registers are kept, and each address above
0xFFF is reported and wraps (42_index_memory.md R114, R116, D13; 20_memory.md R35, D3). -/
def Obligations.StoreRegistersWritesMemory : Prop :=
  ∀ (x : Nibble) (s : State), ∃ t, exec (.ldMemVx x) s = .next t ∧
    (∀ k : Nibble, k ≤ x → Memory.read t.mem (dataAddr s k.val % 4096) = s.getV k) ∧
    Reports s t (rangeEvents (s.pc - 2) s.i.toNat (x.val + 1)) ∧
    FrameExcept (fun p => (∃ a, s.IsDataByte (x.val + 1) a ∧ p = .mem a) ∨ p = .fault ∨ p = .faultEvents) s t

/-- FX65: V0 to VX take the bytes at I to I + X; memory, I and the other registers are kept, and each address above
0xFFF is reported and wraps (42_index_memory.md R115, R116, D13; 20_memory.md R35, D3). -/
def Obligations.LoadRegistersReadsMemory : Prop :=
  ∀ (x : Nibble) (s : State), ∃ t, exec (.ldVxMem x) s = .next t ∧
    (∀ k : Nibble, k ≤ x → t.getV k = Memory.read s.mem (dataAddr s k.val % 4096)) ∧
    Reports s t (rangeEvents (s.pc - 2) s.i.toNat (x.val + 1)) ∧
    FrameExcept (fun p => (∃ r : Nibble, r ≤ x ∧ p = .v r) ∨ p = .fault ∨ p = .faultEvents) s t

/-- A store is seen by the very next fetch (20_memory.md R46, R43; where the bytes land: R35, D3). After FX55, wherever
the bytes of V[k] and V[k + 1] fall on the two bytes of the following instruction, the word fetched next is V[k] then
V[k + 1]; after FX33, wherever two of its digits do, it is those two digits. -/
def Obligations.StoreIsSeenByNextFetch : Prop :=
  (∀ (x k m : Nibble) (s : State), m.val = k.val + 1 → m ≤ x → dataAddr s k.val % 4096 = s.pc.toNat % 4096 →
    ∃ t, exec (.ldMemVx x) s = .next t ∧ t.fetchedWord = s.getV k ++ s.getV m) ∧
  (∀ (x : Nibble) (s : State),
    ∃ t, exec (.ldBVx x) s = .next t ∧
      (dataAddr s 0 % 4096 = s.pc.toNat % 4096 →
        t.fetchedWord.toNat = 256 * ((s.getV x).toNat / 100) + (s.getV x).toNat / 10 % 10) ∧
      (dataAddr s 1 % 4096 = s.pc.toNat % 4096 →
        t.fetchedWord.toNat = 256 * ((s.getV x).toNat / 10 % 10) + (s.getV x).toNat % 10))

/-! ## Display -/

/-- 00E0: every pixel off, nothing else changed (43_display.md R121). -/
def Obligations.ClearTurnsEveryPixelOff : Prop :=
  ∀ s : State, ∃ t, exec .cls s = .next t ∧
    (∀ y x, t.pixel y x = false) ∧ FrameExcept (fun p => ∃ y x, p = .pixel y x) s t

/-- DXYN: a pixel is toggled exactly when a set sprite bit falls on it, at coordinates taken modulo 64 and 32 from VX
and VY as they were before VF was cleared; VF = 1 exactly when a pixel went from on to off; each row address above
0xFFF is reported and wraps; I, memory and the other registers are kept (43_display.md R120, R122; bit order R123,
D17; coordinates in VF D10; out-of-range rows D3). -/
def Obligations.DrawTogglesCoveredPixels : Prop :=
  ∀ (x y n : Nibble) (s : State), ∃ t, exec (.drwVxVyN x y n) s = .next t ∧
    (∀ q p, s.SpriteCovers (s.getV x) (s.getV y) n.val q p → t.pixel q p = !s.pixel q p) ∧
    (∀ q p, ¬ s.SpriteCovers (s.getV x) (s.getV y) n.val q p → t.pixel q p = s.pixel q p) ∧
    ((∃ q p, s.SpriteCovers (s.getV x) (s.getV y) n.val q p ∧ s.pixel q p = true) → t.getV 15 = 1) ∧
    ((∀ q p, s.SpriteCovers (s.getV x) (s.getV y) n.val q p → s.pixel q p = false) → t.getV 15 = 0) ∧
    Reports s t (rangeEvents (s.pc - 2) s.i.toNat n.val) ∧
    FrameExcept (fun p => (∃ q r, p = .pixel q r) ∨ p = .v 15 ∨ p = .fault ∨ p = .faultEvents) s t

/-- Drawing the same sprite twice at the same place restores the framebuffer; on a clear screen the first draw gives
VF = 0, and the second VF = 1 if any set bit was drawn (43_display.md R122, the source's property; coordinates not in
VF, which the first draw overwrites). -/
def Obligations.DrawingTwiceRestoresTheScreen : Prop :=
  ∀ (x y n : Nibble) (s : State), x ≠ 15 → y ≠ 15 →
    ∃ t u, exec (.drwVxVyN x y n) s = .next t ∧ exec (.drwVxVyN x y n) t = .next u ∧
      (∀ q p, u.pixel q p = s.pixel q p) ∧
      ((∀ q p, s.pixel q p = false) →
        t.getV 15 = 0 ∧
        ((∃ q p, s.SpriteCovers (s.getV x) (s.getV y) n.val q p) → u.getV 15 = 1))

/-! ## Timers and keys -/

/-- FX07: VX = DT, DT kept (44_timers_input.md R130). -/
def Obligations.ReadDelayTimer : Prop :=
  ∀ (x : Nibble) (s : State), ∃ t, exec (.ldVxDt x) s = .next t ∧
    t.getV x = s.dt ∧ FrameExcept (fun p => p = .v x) s t

/-- FX15: DT = VX (44_timers_input.md R131). -/
def Obligations.WriteDelayTimer : Prop :=
  ∀ (x : Nibble) (s : State), ∃ t, exec (.ldDtVx x) s = .next t ∧
    t.dt = s.getV x ∧ FrameExcept (fun p => p = .dt) s t

/-- FX18: ST = VX, and `tone_on` is 1 from then on exactly if VX ≠ 0 (44_timers_input.md R132; the level reading of
`tone_on`: 60_exceptions.md R153, D20). -/
def Obligations.WriteSoundTimerDrivesTone : Prop :=
  ∀ (x : Nibble) (s : State), ∃ t, exec (.ldStVx x) s = .next t ∧
    t.st = s.getV x ∧ (toneOn t = true ↔ s.getV x ≠ 0) ∧ FrameExcept (fun p => p = .st) s t

/-- EX9E skips exactly when the key selected by the low four bits of VX is down, EXA1 exactly when it is up
(44_timers_input.md R133, R134; bits 7:4 ignored: R137, D14). -/
def Obligations.KeySkipsTestTheLatch : Prop :=
  ∀ (x k : Nibble) (s : State), k.val = (s.getV x).toNat % 16 →
    (∃ t, exec (.skpVx x) s = .next t ∧
      t.pc = (if s.key k = true then s.pc + 2 else s.pc) ∧ FrameExcept (fun p => p = .pc) s t) ∧
    (∃ t, exec (.sknpVx x) s = .next t ∧
      t.pc = (if s.key k = true then s.pc else s.pc + 2) ∧ FrameExcept (fun p => p = .pc) s t)

/-- FX0A with a key down stores the index of a key that is down, for every KEYSEL, and the only one if there is only
one; PC is past the instruction (44_timers_input.md R135, R136, D15). -/
def Obligations.KeyWaitStoresAPressedKey : Prop :=
  ∀ (x k : Nibble) (s : State), s.key k = true →
    ∃ (t : State) (j : Nibble), exec (.ldVxK x) s = .next t ∧
      (t.getV x).toNat = j.val ∧ s.key j = true ∧ ((∀ m, s.key m = true → m = k) → j = k) ∧
      FrameExcept (fun p => p = .v x) s t

/-- FX0A with no key down undoes the fetch's advance of PC and changes nothing else, so that a step over it leaves the
whole state as it was and the same instruction is fetched again (the model's own `started` and `rndPort` aside, log 9
and log 3; 44_timers_input.md R135; with PC above 0xFFE the fetch reports its bytes each time, decision D4, and the first clause
still holds). -/
def Obligations.KeyWaitRefetchesItself : Prop :=
  ∀ (x : Nibble) (s : State), (∀ k, s.key k = false) →
    (∃ t, exec (.ldVxK x) s = .next t ∧ t.pc = s.pc - 2 ∧ FrameExcept (fun p => p = .pc) s t) ∧
    (s.Idle → s.pc.toNat ≤ 0xFFE → decode s.fetchedWord = some (.ldVxK x) →
      step s = .next { s with started := true, rndPort := none })

/-! ## Whole-machine rules -/

/-- No instruction writes anything the access matrix of 10_state.md R26 does not give it: no instruction writes KEYS,
only FX15 DT, only FX18 ST, only 00E0 and DXYN the framebuffer, only FX33 and FX55 memory (at the addresses they
compute), and so on. -/
def Obligations.AccessMatrixHolds : Prop :=
  ∀ (i : Instr) (s t : State), exec i s = .next t → FrameExcept (writes s i) s t

/-- FAULT is sticky: no step clears a bit but the `Reset` event (10_state.md R21, D9). And faults are raised by
instruction cycles alone (60_exceptions.md R140, R141): every step but `Reset` adds events to those before it and sets
FAULT by them, none unless the step is a `CpuStep`, the free-running CPU's or a scheduled one; `Reset` empties both.
The list of events is the model's choice (log 10), and so is the schedule (log 7). -/
def Obligations.FaultBitsAreStickyAndRaisedByInstructionsOnly : Prop :=
  ∀ s t : State, step s = .next t →
    (∀ c : FaultCode, s.fault.getLsbD c.bit.val = true →
      t.fault.getLsbD c.bit.val = true ∨ ∃ es, s.NextEvent .reset es) ∧
    ((∃ new, Reports s t new ∧ (new ≠ [] → s.Idle ∨ ∃ rnd es, s.NextEvent (.cpuStep rnd) es)) ∨
      ((∃ es, s.NextEvent .reset es) ∧ t.fault = 0 ∧ t.faultEvents = []))

/-- The program cannot observe FAULT, the fault events or ST: two states that differ in these alone step to states that
differ in these alone, or are refused alike, whatever the step is; and every instruction takes them to such states, alike
in ST where it is written (10_state.md R17, R21; 60_exceptions.md R141; FAULT and its events: D9). The event list is
the model's choice (log 10), and so are the schedule and the refusal (log 7, log 9). -/
def Obligations.FaultAndSoundTimerAreInvisible : Prop :=
  ∀ (s : State) (f : BitVec 4) (es : List FaultEvent) (b : Byte),
    (∀ t, step s = .next t → ∃ f' es' b',
      step { s with fault := f, faultEvents := es, st := b } = .next { t with fault := f', faultEvents := es', st := b' }) ∧
    (∀ r, step s = .refused r → step { s with fault := f, faultEvents := es, st := b } = .refused r) ∧
    (∀ i t, exec i s = .next t → ∃ f' es' b',
      exec i { s with fault := f, faultEvents := es, st := b } = .next { t with fault := f', faultEvents := es', st := b' } ∧
        (∀ x, i = .ldStVx x → b' = t.st))

/-- The invariant holds at reset (the form of memory: log 1; the event list and `started`, the model's own: log 10, log 9,
log 16). -/
def Obligations.InvariantHoldsAtReset : Prop := Inv State.reset

/-- Every step keeps the invariant, from every state that meets it: memory stays in its canonical form (log 1), FAULT
stays the summary of the fault events, every event's info is of its code's kind, and no fault event stands before the
first `CpuStep` since the last `Reset` (60_exceptions.md R140, R141, D9; the event list and `started` are the model's
choice, log 10, log 9). -/
def Obligations.StepKeepsInvariant : Prop :=
  ∀ s t : State, Inv s → step s = .next t → Inv t
end

