-- ==== Sys2Proof/Laws/Decode.lean ====
section
/-! SUPPORT. The fields of a composed word, and a word as the composition of its fields (30_encoding.md R51, R52). -/

namespace Sys2Proof

theorem ofFin_toFin (b : BitVec 4) : (BitVec.ofFin b.toFin : BitVec 4) = b := rfl

section
variable (t : BitVec 4) (x y : Nibble) (n : BitVec 4) (nn : Byte) (nnn : Addr12)

@[simp] theorem fieldT_wordNNN : fieldT (wordNNN t nnn) = t := by
  apply BitVec.eq_of_getLsbD_eq; intro i hi
  simp only [fieldT, wordNNN, BitVec.getLsbD_extractLsb', BitVec.getLsbD_append]
  grind

@[simp] theorem fieldNNN_wordNNN : fieldNNN (wordNNN t nnn) = nnn := by
  apply BitVec.eq_of_getLsbD_eq; intro i hi
  simp only [fieldNNN, wordNNN, BitVec.getLsbD_extractLsb', BitVec.getLsbD_append]
  grind

@[simp] theorem fieldT_wordXNN : fieldT (wordXNN t x nn) = t := by
  apply BitVec.eq_of_getLsbD_eq; intro i hi
  simp only [fieldT, wordXNN, BitVec.getLsbD_extractLsb', BitVec.getLsbD_append]
  grind

@[simp] theorem fieldX_wordXNN : fieldX (wordXNN t x nn) = x := by
  unfold fieldX
  have : (wordXNN t x nn).extractLsb' 8 4 = (BitVec.ofFin x : BitVec 4) := by
    apply BitVec.eq_of_getLsbD_eq; intro i hi
    simp only [wordXNN, BitVec.getLsbD_extractLsb', BitVec.getLsbD_append]
    grind
  rw [this]

@[simp] theorem fieldNN_wordXNN : fieldNN (wordXNN t x nn) = nn := by
  apply BitVec.eq_of_getLsbD_eq; intro i hi
  simp only [fieldNN, wordXNN, BitVec.getLsbD_extractLsb', BitVec.getLsbD_append]
  grind

@[simp] theorem fieldT_wordXYN : fieldT (wordXYN t x y n) = t := by
  apply BitVec.eq_of_getLsbD_eq; intro i hi
  simp only [fieldT, wordXYN, BitVec.getLsbD_extractLsb', BitVec.getLsbD_append]
  grind

@[simp] theorem fieldX_wordXYN : fieldX (wordXYN t x y n) = x := by
  unfold fieldX
  have : (wordXYN t x y n).extractLsb' 8 4 = (BitVec.ofFin x : BitVec 4) := by
    apply BitVec.eq_of_getLsbD_eq; intro i hi
    simp only [wordXYN, BitVec.getLsbD_extractLsb', BitVec.getLsbD_append]
    grind
  rw [this]

@[simp] theorem fieldY_wordXYN : fieldY (wordXYN t x y n) = y := by
  unfold fieldY
  have : (wordXYN t x y n).extractLsb' 4 4 = (BitVec.ofFin y : BitVec 4) := by
    apply BitVec.eq_of_getLsbD_eq; intro i hi
    simp only [wordXYN, BitVec.getLsbD_extractLsb', BitVec.getLsbD_append]
    grind
  rw [this]

@[simp] theorem fieldN_wordXYN : fieldN (wordXYN t x y n) = n.toFin := by
  unfold fieldN
  have : (wordXYN t x y n).extractLsb' 0 4 = n := by
    apply BitVec.eq_of_getLsbD_eq; intro i hi
    simp only [wordXYN, BitVec.getLsbD_extractLsb', BitVec.getLsbD_append]
    grind
  rw [this]

end

theorem wordNNN_fields (op : Word) : wordNNN (fieldT op) (fieldNNN op) = op := by
  apply BitVec.eq_of_getLsbD_eq; intro i hi
  simp only [wordNNN, fieldT, fieldNNN, BitVec.getLsbD_append, BitVec.getLsbD_extractLsb']
  split
  · next h => simp [h]
  · next h => simp [show i - 12 < 4 by omega, show 12 + (i - 12) = i by omega]

theorem wordXNN_fields (op : Word) : wordXNN (fieldT op) (fieldX op) (fieldNN op) = op := by
  apply BitVec.eq_of_getLsbD_eq; intro i hi
  simp only [wordXNN, fieldT, fieldX, fieldNN, ofFin_toFin, BitVec.getLsbD_append, BitVec.getLsbD_extractLsb']
  split
  · next h => simp [h]
  · next h =>
    split
    · next h' => simp [h', show 8 + (i - 8) = i by omega]
    · next h' => simp [show i - 8 - 4 < 4 by omega, show 12 + (i - 8 - 4) = i by omega]

theorem wordXYN_fields (op : Word) :
    wordXYN (fieldT op) (fieldX op) (fieldY op) (BitVec.ofFin (fieldN op)) = op := by
  apply BitVec.eq_of_getLsbD_eq; intro i hi
  simp only [wordXYN, fieldT, fieldX, fieldY, fieldN, ofFin_toFin, BitVec.getLsbD_append, BitVec.getLsbD_extractLsb']
  split
  · next h => simp [h]
  · next h =>
    split
    · next h' => simp [h', show 4 + (i - 4) = i by omega]
    · next h' =>
      split
      · next h'' => simp [h'', show 8 + (i - 4 - 4) = i by omega]
      · next h'' => simp [show i - 4 - 4 - 4 < 4 by omega, show 12 + (i - 4 - 4 - 4) = i by omega]

/-- The bytes of a word, high byte first, make it up again (20_memory.md R32). -/
theorem wordOfBytes_extract (op : Word) : wordOfBytes (op.extractLsb' 8 8) (op.extractLsb' 0 8) = op := by
  apply BitVec.eq_of_getLsbD_eq; intro i hi
  simp only [wordOfBytes, BitVec.getLsbD_append, BitVec.getLsbD_extractLsb']
  split
  · next h => simp [h]
  · next h => simp [show i - 8 < 8 by omega, show 8 + (i - 8) = i by omega]

end Sys2Proof
end

