-- ==== Sys2Proof/Laws/Memory.lean ====
section
/-! SUPPORT. The laws of memory: read after write, and the canonical form is kept by every operation. -/

namespace Sys2Proof.Machine

theorem cellAt_write (m : Memory) (a : Nat) (b : Byte) (c : Nat) :
    Memory.cellAt (Memory.write m a b) c = if a = c then some b else Memory.cellAt m c := by
  induction m with
  | nil => simp [Memory.write, Memory.cellAt]
  | cons e m ih =>
    obtain ⟨k, d⟩ := e
    simp only [Memory.write]
    split
    · simp [Memory.cellAt]
    · split
      · next h => subst h; by_cases hc : a = c <;> simp [Memory.cellAt, hc]
      · next h =>
        simp only [Memory.cellAt, ih]
        by_cases hk : k = c
        · have : a ≠ c := fun h' => h (h'.trans hk.symm)
          simp [hk, this]
        · simp [hk]

/-- A byte reads as last written, and a write leaves every other byte alone (20_memory.md R43). -/
theorem read_write (m : Memory) (a : Nat) (b : Byte) (c : Nat) :
    Memory.read (Memory.write m a b) c = if a = c then b else Memory.read m c := by
  unfold Memory.read
  rw [cellAt_write]
  split <;> simp

@[simp] theorem read_write_same (m : Memory) (a : Nat) (b : Byte) :
    Memory.read (Memory.write m a b) a = b := by simp [read_write]

theorem read_write_ne (m : Memory) {a c : Nat} (b : Byte) (h : a ≠ c) :
    Memory.read (Memory.write m a b) c = Memory.read m c := by simp [read_write, h]

theorem cellAt_unlistBelow (n : Nat) (m : Memory) (a : Nat) :
    Memory.cellAt (Memory.unlistBelow n m) a = if n ≤ a then Memory.cellAt m a else none := by
  induction m with
  | nil => simp [Memory.unlistBelow, Memory.cellAt]
  | cons e m ih =>
    obtain ⟨k, d⟩ := e
    simp only [Memory.unlistBelow, List.filter_cons] at ih ⊢
    by_cases hk : n ≤ k
    · rw [if_pos (decide_eq_true hk)]
      simp only [Memory.cellAt, ih]
      by_cases ha : k = a
      · subst ha; simp [hk]
      · simp [ha]
    · rw [if_neg (by simpa using hk), ih]
      by_cases ha : k = a
      · subst ha; simp [hk]
      · simp [Memory.cellAt, ha]

/-- Below `n` an unlisted memory reads as the unlisted value, above as before. -/
theorem read_unlistBelow (n : Nat) (m : Memory) (a : Nat) :
    Memory.read (Memory.unlistBelow n m) a = if n ≤ a then Memory.read m a else Memory.unlisted a := by
  unfold Memory.read
  rw [cellAt_unlistBelow]
  split <;> rfl

theorem mem_write {m : Memory} {a : Nat} {b : Byte} {c : Host.Cell} (h : c ∈ Memory.write m a b) :
    c = (a, b) ∨ c ∈ m := by
  induction m with
  | nil => simpa [Memory.write] using h
  | cons e m ih =>
    obtain ⟨k, d⟩ := e
    simp only [Memory.write] at h
    split at h
    · simpa using h
    · split at h
      · rcases List.mem_cons.1 h with h | h
        · exact .inl h
        · exact .inr (List.mem_cons_of_mem _ h)
      · rcases List.mem_cons.1 h with h | h
        · exact .inr (h ▸ List.mem_cons_self ..)
        · rcases ih h with h | h
          · exact .inl h
          · exact .inr (List.mem_cons_of_mem _ h)

theorem pairwise_write {m : Memory} (a : Nat) (b : Byte) (h : m.Pairwise (fun c d => c.1 < d.1)) :
    (Memory.write m a b).Pairwise (fun c d => c.1 < d.1) := by
  induction m with
  | nil => simp [Memory.write]
  | cons e m ih =>
    obtain ⟨k, d⟩ := e
    rw [List.pairwise_cons] at h
    simp only [Memory.write]
    split
    · next hlt =>
      refine List.pairwise_cons.2 ⟨?_, List.pairwise_cons.2 h⟩
      intro c hc
      rcases List.mem_cons.1 hc with rfl | hc
      · exact hlt
      · exact Nat.lt_trans hlt (h.1 c hc)
    · split
      · next heq => subst heq; exact List.pairwise_cons.2 ⟨fun c hc => h.1 c hc, h.2⟩
      · next hge hne =>
        refine List.pairwise_cons.2 ⟨?_, ih h.2⟩
        intro c hc
        rcases mem_write hc with rfl | hc
        · show k < a; omega
        · exact h.1 c hc

/-- The canonical form is kept by a write inside the address space. -/
theorem wf_write {m : Memory} {a : Nat} (b : Byte) (ha : a < 4096) (h : Memory.wf m) :
    Memory.wf (Memory.write m a b) := by
  refine ⟨pairwise_write a b h.1, fun c hc => ?_⟩
  rcases mem_write hc with rfl | hc
  · exact ha
  · exact h.2 c hc

/-- The canonical form is kept by `Reset`'s rewriting of the font region. -/
theorem wf_unlistBelow {m : Memory} (n : Nat) (h : Memory.wf m) : Memory.wf (Memory.unlistBelow n m) :=
  ⟨h.1.filter _, fun c hc => h.2 c (List.mem_filter.1 hc).1⟩

/-- Reset memory lists nothing, in canonical form. -/
theorem wf_reset : Memory.wf State.reset.mem := by decide

end Sys2Proof.Machine
end

