-- ==== Sys2Proof/Laws/State.lean ====
section
/-! SUPPORT. One lemma per field per update of the state, true by definition, so that no proof unfolds a record
update; and the accessors (`getV`, `pixel`, `key`) through every update. -/

namespace Sys2Proof.Machine

/-! ## setV -/

@[simp] theorem setV_v (s : State) (r : Nibble) (b : Byte) : (s.setV r b).v = s.v.set r.val b := rfl
@[simp] theorem setV_i (s : State) (r : Nibble) (b : Byte) : (s.setV r b).i = s.i := rfl
@[simp] theorem setV_pc (s : State) (r : Nibble) (b : Byte) : (s.setV r b).pc = s.pc := rfl
@[simp] theorem setV_sp (s : State) (r : Nibble) (b : Byte) : (s.setV r b).sp = s.sp := rfl
@[simp] theorem setV_stack (s : State) (r : Nibble) (b : Byte) : (s.setV r b).stack = s.stack := rfl
@[simp] theorem setV_dt (s : State) (r : Nibble) (b : Byte) : (s.setV r b).dt = s.dt := rfl
@[simp] theorem setV_st (s : State) (r : Nibble) (b : Byte) : (s.setV r b).st = s.st := rfl
@[simp] theorem setV_fb (s : State) (r : Nibble) (b : Byte) : (s.setV r b).fb = s.fb := rfl
@[simp] theorem setV_keys (s : State) (r : Nibble) (b : Byte) : (s.setV r b).keys = s.keys := rfl
@[simp] theorem setV_mem (s : State) (r : Nibble) (b : Byte) : (s.setV r b).mem = s.mem := rfl
@[simp] theorem setV_fault (s : State) (r : Nibble) (b : Byte) : (s.setV r b).fault = s.fault := rfl
@[simp] theorem setV_tickPend (s : State) (r : Nibble) (b : Byte) : (s.setV r b).tickPend = s.tickPend := rfl
@[simp] theorem setV_faultEvents (s : State) (r : Nibble) (b : Byte) : (s.setV r b).faultEvents = s.faultEvents := rfl
@[simp] theorem setV_started (s : State) (r : Nibble) (b : Byte) : (s.setV r b).started = s.started := rfl
@[simp] theorem setV_schedule (s : State) (r : Nibble) (b : Byte) : (s.setV r b).schedule = s.schedule := rfl
@[simp] theorem setV_rndPort (s : State) (r : Nibble) (b : Byte) : (s.setV r b).rndPort = s.rndPort := rfl
@[simp] theorem setV_rndDraws (s : State) (r : Nibble) (b : Byte) : (s.setV r b).rndDraws = s.rndDraws := rfl
@[simp] theorem setV_pixel (s : State) (r : Nibble) (b : Byte) (q : Fin 32) (p : Fin 64) : (s.setV r b).pixel q p = s.pixel q p := rfl
@[simp] theorem setV_key (s : State) (r : Nibble) (b : Byte) (q : Nibble) : (s.setV r b).key q = s.key q := rfl

/-! ## setI -/

@[simp] theorem setI_v (s : State) (w : Word) : (s.setI w).v = s.v := rfl
@[simp] theorem setI_i (s : State) (w : Word) : (s.setI w).i = w := rfl
@[simp] theorem setI_pc (s : State) (w : Word) : (s.setI w).pc = s.pc := rfl
@[simp] theorem setI_sp (s : State) (w : Word) : (s.setI w).sp = s.sp := rfl
@[simp] theorem setI_stack (s : State) (w : Word) : (s.setI w).stack = s.stack := rfl
@[simp] theorem setI_dt (s : State) (w : Word) : (s.setI w).dt = s.dt := rfl
@[simp] theorem setI_st (s : State) (w : Word) : (s.setI w).st = s.st := rfl
@[simp] theorem setI_fb (s : State) (w : Word) : (s.setI w).fb = s.fb := rfl
@[simp] theorem setI_keys (s : State) (w : Word) : (s.setI w).keys = s.keys := rfl
@[simp] theorem setI_mem (s : State) (w : Word) : (s.setI w).mem = s.mem := rfl
@[simp] theorem setI_fault (s : State) (w : Word) : (s.setI w).fault = s.fault := rfl
@[simp] theorem setI_tickPend (s : State) (w : Word) : (s.setI w).tickPend = s.tickPend := rfl
@[simp] theorem setI_faultEvents (s : State) (w : Word) : (s.setI w).faultEvents = s.faultEvents := rfl
@[simp] theorem setI_started (s : State) (w : Word) : (s.setI w).started = s.started := rfl
@[simp] theorem setI_schedule (s : State) (w : Word) : (s.setI w).schedule = s.schedule := rfl
@[simp] theorem setI_rndPort (s : State) (w : Word) : (s.setI w).rndPort = s.rndPort := rfl
@[simp] theorem setI_rndDraws (s : State) (w : Word) : (s.setI w).rndDraws = s.rndDraws := rfl
@[simp] theorem setI_getV (s : State) (w : Word) (q : Nibble) : (s.setI w).getV q = s.getV q := rfl
@[simp] theorem setI_pixel (s : State) (w : Word) (q : Fin 32) (p : Fin 64) : (s.setI w).pixel q p = s.pixel q p := rfl
@[simp] theorem setI_key (s : State) (w : Word) (q : Nibble) : (s.setI w).key q = s.key q := rfl

/-! ## setPc -/

@[simp] theorem setPc_v (s : State) (w : Word) : (s.setPc w).v = s.v := rfl
@[simp] theorem setPc_i (s : State) (w : Word) : (s.setPc w).i = s.i := rfl
@[simp] theorem setPc_pc (s : State) (w : Word) : (s.setPc w).pc = w := rfl
@[simp] theorem setPc_sp (s : State) (w : Word) : (s.setPc w).sp = s.sp := rfl
@[simp] theorem setPc_stack (s : State) (w : Word) : (s.setPc w).stack = s.stack := rfl
@[simp] theorem setPc_dt (s : State) (w : Word) : (s.setPc w).dt = s.dt := rfl
@[simp] theorem setPc_st (s : State) (w : Word) : (s.setPc w).st = s.st := rfl
@[simp] theorem setPc_fb (s : State) (w : Word) : (s.setPc w).fb = s.fb := rfl
@[simp] theorem setPc_keys (s : State) (w : Word) : (s.setPc w).keys = s.keys := rfl
@[simp] theorem setPc_mem (s : State) (w : Word) : (s.setPc w).mem = s.mem := rfl
@[simp] theorem setPc_fault (s : State) (w : Word) : (s.setPc w).fault = s.fault := rfl
@[simp] theorem setPc_tickPend (s : State) (w : Word) : (s.setPc w).tickPend = s.tickPend := rfl
@[simp] theorem setPc_faultEvents (s : State) (w : Word) : (s.setPc w).faultEvents = s.faultEvents := rfl
@[simp] theorem setPc_started (s : State) (w : Word) : (s.setPc w).started = s.started := rfl
@[simp] theorem setPc_schedule (s : State) (w : Word) : (s.setPc w).schedule = s.schedule := rfl
@[simp] theorem setPc_rndPort (s : State) (w : Word) : (s.setPc w).rndPort = s.rndPort := rfl
@[simp] theorem setPc_rndDraws (s : State) (w : Word) : (s.setPc w).rndDraws = s.rndDraws := rfl
@[simp] theorem setPc_getV (s : State) (w : Word) (q : Nibble) : (s.setPc w).getV q = s.getV q := rfl
@[simp] theorem setPc_pixel (s : State) (w : Word) (q : Fin 32) (p : Fin 64) : (s.setPc w).pixel q p = s.pixel q p := rfl
@[simp] theorem setPc_key (s : State) (w : Word) (q : Nibble) : (s.setPc w).key q = s.key q := rfl

/-! ## setDt -/

@[simp] theorem setDt_v (s : State) (b : Byte) : (s.setDt b).v = s.v := rfl
@[simp] theorem setDt_i (s : State) (b : Byte) : (s.setDt b).i = s.i := rfl
@[simp] theorem setDt_pc (s : State) (b : Byte) : (s.setDt b).pc = s.pc := rfl
@[simp] theorem setDt_sp (s : State) (b : Byte) : (s.setDt b).sp = s.sp := rfl
@[simp] theorem setDt_stack (s : State) (b : Byte) : (s.setDt b).stack = s.stack := rfl
@[simp] theorem setDt_dt (s : State) (b : Byte) : (s.setDt b).dt = b := rfl
@[simp] theorem setDt_st (s : State) (b : Byte) : (s.setDt b).st = s.st := rfl
@[simp] theorem setDt_fb (s : State) (b : Byte) : (s.setDt b).fb = s.fb := rfl
@[simp] theorem setDt_keys (s : State) (b : Byte) : (s.setDt b).keys = s.keys := rfl
@[simp] theorem setDt_mem (s : State) (b : Byte) : (s.setDt b).mem = s.mem := rfl
@[simp] theorem setDt_fault (s : State) (b : Byte) : (s.setDt b).fault = s.fault := rfl
@[simp] theorem setDt_tickPend (s : State) (b : Byte) : (s.setDt b).tickPend = s.tickPend := rfl
@[simp] theorem setDt_faultEvents (s : State) (b : Byte) : (s.setDt b).faultEvents = s.faultEvents := rfl
@[simp] theorem setDt_started (s : State) (b : Byte) : (s.setDt b).started = s.started := rfl
@[simp] theorem setDt_schedule (s : State) (b : Byte) : (s.setDt b).schedule = s.schedule := rfl
@[simp] theorem setDt_rndPort (s : State) (b : Byte) : (s.setDt b).rndPort = s.rndPort := rfl
@[simp] theorem setDt_rndDraws (s : State) (b : Byte) : (s.setDt b).rndDraws = s.rndDraws := rfl
@[simp] theorem setDt_getV (s : State) (b : Byte) (q : Nibble) : (s.setDt b).getV q = s.getV q := rfl
@[simp] theorem setDt_pixel (s : State) (b : Byte) (q : Fin 32) (p : Fin 64) : (s.setDt b).pixel q p = s.pixel q p := rfl
@[simp] theorem setDt_key (s : State) (b : Byte) (q : Nibble) : (s.setDt b).key q = s.key q := rfl

/-! ## setSt -/

@[simp] theorem setSt_v (s : State) (b : Byte) : (s.setSt b).v = s.v := rfl
@[simp] theorem setSt_i (s : State) (b : Byte) : (s.setSt b).i = s.i := rfl
@[simp] theorem setSt_pc (s : State) (b : Byte) : (s.setSt b).pc = s.pc := rfl
@[simp] theorem setSt_sp (s : State) (b : Byte) : (s.setSt b).sp = s.sp := rfl
@[simp] theorem setSt_stack (s : State) (b : Byte) : (s.setSt b).stack = s.stack := rfl
@[simp] theorem setSt_dt (s : State) (b : Byte) : (s.setSt b).dt = s.dt := rfl
@[simp] theorem setSt_st (s : State) (b : Byte) : (s.setSt b).st = b := rfl
@[simp] theorem setSt_fb (s : State) (b : Byte) : (s.setSt b).fb = s.fb := rfl
@[simp] theorem setSt_keys (s : State) (b : Byte) : (s.setSt b).keys = s.keys := rfl
@[simp] theorem setSt_mem (s : State) (b : Byte) : (s.setSt b).mem = s.mem := rfl
@[simp] theorem setSt_fault (s : State) (b : Byte) : (s.setSt b).fault = s.fault := rfl
@[simp] theorem setSt_tickPend (s : State) (b : Byte) : (s.setSt b).tickPend = s.tickPend := rfl
@[simp] theorem setSt_faultEvents (s : State) (b : Byte) : (s.setSt b).faultEvents = s.faultEvents := rfl
@[simp] theorem setSt_started (s : State) (b : Byte) : (s.setSt b).started = s.started := rfl
@[simp] theorem setSt_schedule (s : State) (b : Byte) : (s.setSt b).schedule = s.schedule := rfl
@[simp] theorem setSt_rndPort (s : State) (b : Byte) : (s.setSt b).rndPort = s.rndPort := rfl
@[simp] theorem setSt_rndDraws (s : State) (b : Byte) : (s.setSt b).rndDraws = s.rndDraws := rfl
@[simp] theorem setSt_getV (s : State) (b : Byte) (q : Nibble) : (s.setSt b).getV q = s.getV q := rfl
@[simp] theorem setSt_pixel (s : State) (b : Byte) (q : Fin 32) (p : Fin 64) : (s.setSt b).pixel q p = s.pixel q p := rfl
@[simp] theorem setSt_key (s : State) (b : Byte) (q : Nibble) : (s.setSt b).key q = s.key q := rfl

/-! ## setPixel -/

@[simp] theorem setPixel_v (s : State) (y : Fin 32) (x : Fin 64) (b : Bool) : (s.setPixel y x b).v = s.v := rfl
@[simp] theorem setPixel_i (s : State) (y : Fin 32) (x : Fin 64) (b : Bool) : (s.setPixel y x b).i = s.i := rfl
@[simp] theorem setPixel_pc (s : State) (y : Fin 32) (x : Fin 64) (b : Bool) : (s.setPixel y x b).pc = s.pc := rfl
@[simp] theorem setPixel_sp (s : State) (y : Fin 32) (x : Fin 64) (b : Bool) : (s.setPixel y x b).sp = s.sp := rfl
@[simp] theorem setPixel_stack (s : State) (y : Fin 32) (x : Fin 64) (b : Bool) : (s.setPixel y x b).stack = s.stack := rfl
@[simp] theorem setPixel_dt (s : State) (y : Fin 32) (x : Fin 64) (b : Bool) : (s.setPixel y x b).dt = s.dt := rfl
@[simp] theorem setPixel_st (s : State) (y : Fin 32) (x : Fin 64) (b : Bool) : (s.setPixel y x b).st = s.st := rfl
@[simp] theorem setPixel_fb (s : State) (y : Fin 32) (x : Fin 64) (b : Bool) : (s.setPixel y x b).fb = s.fb.set y.val (s.fb[y.val].set x.val b) := rfl
@[simp] theorem setPixel_keys (s : State) (y : Fin 32) (x : Fin 64) (b : Bool) : (s.setPixel y x b).keys = s.keys := rfl
@[simp] theorem setPixel_mem (s : State) (y : Fin 32) (x : Fin 64) (b : Bool) : (s.setPixel y x b).mem = s.mem := rfl
@[simp] theorem setPixel_fault (s : State) (y : Fin 32) (x : Fin 64) (b : Bool) : (s.setPixel y x b).fault = s.fault := rfl
@[simp] theorem setPixel_tickPend (s : State) (y : Fin 32) (x : Fin 64) (b : Bool) : (s.setPixel y x b).tickPend = s.tickPend := rfl
@[simp] theorem setPixel_faultEvents (s : State) (y : Fin 32) (x : Fin 64) (b : Bool) : (s.setPixel y x b).faultEvents = s.faultEvents := rfl
@[simp] theorem setPixel_started (s : State) (y : Fin 32) (x : Fin 64) (b : Bool) : (s.setPixel y x b).started = s.started := rfl
@[simp] theorem setPixel_schedule (s : State) (y : Fin 32) (x : Fin 64) (b : Bool) : (s.setPixel y x b).schedule = s.schedule := rfl
@[simp] theorem setPixel_rndPort (s : State) (y : Fin 32) (x : Fin 64) (b : Bool) : (s.setPixel y x b).rndPort = s.rndPort := rfl
@[simp] theorem setPixel_rndDraws (s : State) (y : Fin 32) (x : Fin 64) (b : Bool) : (s.setPixel y x b).rndDraws = s.rndDraws := rfl
@[simp] theorem setPixel_getV (s : State) (y : Fin 32) (x : Fin 64) (b : Bool) (q : Nibble) : (s.setPixel y x b).getV q = s.getV q := rfl
@[simp] theorem setPixel_key (s : State) (y : Fin 32) (x : Fin 64) (b : Bool) (q : Nibble) : (s.setPixel y x b).key q = s.key q := rfl

/-! ## clearFb -/

@[simp] theorem clearFb_v (s : State) : (s.clearFb).v = s.v := rfl
@[simp] theorem clearFb_i (s : State) : (s.clearFb).i = s.i := rfl
@[simp] theorem clearFb_pc (s : State) : (s.clearFb).pc = s.pc := rfl
@[simp] theorem clearFb_sp (s : State) : (s.clearFb).sp = s.sp := rfl
@[simp] theorem clearFb_stack (s : State) : (s.clearFb).stack = s.stack := rfl
@[simp] theorem clearFb_dt (s : State) : (s.clearFb).dt = s.dt := rfl
@[simp] theorem clearFb_st (s : State) : (s.clearFb).st = s.st := rfl
@[simp] theorem clearFb_fb (s : State) : (s.clearFb).fb = Vector.replicate 32 (Vector.replicate 64 false) := rfl
@[simp] theorem clearFb_keys (s : State) : (s.clearFb).keys = s.keys := rfl
@[simp] theorem clearFb_mem (s : State) : (s.clearFb).mem = s.mem := rfl
@[simp] theorem clearFb_fault (s : State) : (s.clearFb).fault = s.fault := rfl
@[simp] theorem clearFb_tickPend (s : State) : (s.clearFb).tickPend = s.tickPend := rfl
@[simp] theorem clearFb_faultEvents (s : State) : (s.clearFb).faultEvents = s.faultEvents := rfl
@[simp] theorem clearFb_started (s : State) : (s.clearFb).started = s.started := rfl
@[simp] theorem clearFb_schedule (s : State) : (s.clearFb).schedule = s.schedule := rfl
@[simp] theorem clearFb_rndPort (s : State) : (s.clearFb).rndPort = s.rndPort := rfl
@[simp] theorem clearFb_rndDraws (s : State) : (s.clearFb).rndDraws = s.rndDraws := rfl
@[simp] theorem clearFb_getV (s : State) (q : Nibble) : (s.clearFb).getV q = s.getV q := rfl
@[simp] theorem clearFb_key (s : State) (q : Nibble) : (s.clearFb).key q = s.key q := rfl

/-! ## setKey -/

@[simp] theorem setKey_v (s : State) (k : Nibble) (b : Bool) : (s.setKey k b).v = s.v := rfl
@[simp] theorem setKey_i (s : State) (k : Nibble) (b : Bool) : (s.setKey k b).i = s.i := rfl
@[simp] theorem setKey_pc (s : State) (k : Nibble) (b : Bool) : (s.setKey k b).pc = s.pc := rfl
@[simp] theorem setKey_sp (s : State) (k : Nibble) (b : Bool) : (s.setKey k b).sp = s.sp := rfl
@[simp] theorem setKey_stack (s : State) (k : Nibble) (b : Bool) : (s.setKey k b).stack = s.stack := rfl
@[simp] theorem setKey_dt (s : State) (k : Nibble) (b : Bool) : (s.setKey k b).dt = s.dt := rfl
@[simp] theorem setKey_st (s : State) (k : Nibble) (b : Bool) : (s.setKey k b).st = s.st := rfl
@[simp] theorem setKey_fb (s : State) (k : Nibble) (b : Bool) : (s.setKey k b).fb = s.fb := rfl
@[simp] theorem setKey_keys (s : State) (k : Nibble) (b : Bool) : (s.setKey k b).keys = s.keys.set k.val b := rfl
@[simp] theorem setKey_mem (s : State) (k : Nibble) (b : Bool) : (s.setKey k b).mem = s.mem := rfl
@[simp] theorem setKey_fault (s : State) (k : Nibble) (b : Bool) : (s.setKey k b).fault = s.fault := rfl
@[simp] theorem setKey_tickPend (s : State) (k : Nibble) (b : Bool) : (s.setKey k b).tickPend = s.tickPend := rfl
@[simp] theorem setKey_faultEvents (s : State) (k : Nibble) (b : Bool) : (s.setKey k b).faultEvents = s.faultEvents := rfl
@[simp] theorem setKey_started (s : State) (k : Nibble) (b : Bool) : (s.setKey k b).started = s.started := rfl
@[simp] theorem setKey_schedule (s : State) (k : Nibble) (b : Bool) : (s.setKey k b).schedule = s.schedule := rfl
@[simp] theorem setKey_rndPort (s : State) (k : Nibble) (b : Bool) : (s.setKey k b).rndPort = s.rndPort := rfl
@[simp] theorem setKey_rndDraws (s : State) (k : Nibble) (b : Bool) : (s.setKey k b).rndDraws = s.rndDraws := rfl
@[simp] theorem setKey_getV (s : State) (k : Nibble) (b : Bool) (q : Nibble) : (s.setKey k b).getV q = s.getV q := rfl
@[simp] theorem setKey_pixel (s : State) (k : Nibble) (b : Bool) (q : Fin 32) (p : Fin 64) : (s.setKey k b).pixel q p = s.pixel q p := rfl

/-! ## countDraw -/

@[simp] theorem countDraw_v (s : State) : (s.countDraw).v = s.v := rfl
@[simp] theorem countDraw_i (s : State) : (s.countDraw).i = s.i := rfl
@[simp] theorem countDraw_pc (s : State) : (s.countDraw).pc = s.pc := rfl
@[simp] theorem countDraw_sp (s : State) : (s.countDraw).sp = s.sp := rfl
@[simp] theorem countDraw_stack (s : State) : (s.countDraw).stack = s.stack := rfl
@[simp] theorem countDraw_dt (s : State) : (s.countDraw).dt = s.dt := rfl
@[simp] theorem countDraw_st (s : State) : (s.countDraw).st = s.st := rfl
@[simp] theorem countDraw_fb (s : State) : (s.countDraw).fb = s.fb := rfl
@[simp] theorem countDraw_keys (s : State) : (s.countDraw).keys = s.keys := rfl
@[simp] theorem countDraw_mem (s : State) : (s.countDraw).mem = s.mem := rfl
@[simp] theorem countDraw_fault (s : State) : (s.countDraw).fault = s.fault := rfl
@[simp] theorem countDraw_tickPend (s : State) : (s.countDraw).tickPend = s.tickPend := rfl
@[simp] theorem countDraw_faultEvents (s : State) : (s.countDraw).faultEvents = s.faultEvents := rfl
@[simp] theorem countDraw_started (s : State) : (s.countDraw).started = s.started := rfl
@[simp] theorem countDraw_schedule (s : State) : (s.countDraw).schedule = s.schedule := rfl
@[simp] theorem countDraw_rndPort (s : State) : (s.countDraw).rndPort = s.rndPort := rfl
@[simp] theorem countDraw_rndDraws (s : State) : (s.countDraw).rndDraws = s.rndDraws + 1 := rfl
@[simp] theorem countDraw_getV (s : State) (q : Nibble) : (s.countDraw).getV q = s.getV q := rfl
@[simp] theorem countDraw_pixel (s : State) (q : Fin 32) (p : Fin 64) : (s.countDraw).pixel q p = s.pixel q p := rfl
@[simp] theorem countDraw_key (s : State) (q : Nibble) : (s.countDraw).key q = s.key q := rfl

/-! ## beginCycle -/

@[simp] theorem beginCycle_v (s : State) (rnd : Option Byte) : (s.beginCycle rnd).v = s.v := rfl
@[simp] theorem beginCycle_i (s : State) (rnd : Option Byte) : (s.beginCycle rnd).i = s.i := rfl
@[simp] theorem beginCycle_pc (s : State) (rnd : Option Byte) : (s.beginCycle rnd).pc = s.pc := rfl
@[simp] theorem beginCycle_sp (s : State) (rnd : Option Byte) : (s.beginCycle rnd).sp = s.sp := rfl
@[simp] theorem beginCycle_stack (s : State) (rnd : Option Byte) : (s.beginCycle rnd).stack = s.stack := rfl
@[simp] theorem beginCycle_dt (s : State) (rnd : Option Byte) : (s.beginCycle rnd).dt = s.dt := rfl
@[simp] theorem beginCycle_st (s : State) (rnd : Option Byte) : (s.beginCycle rnd).st = s.st := rfl
@[simp] theorem beginCycle_fb (s : State) (rnd : Option Byte) : (s.beginCycle rnd).fb = s.fb := rfl
@[simp] theorem beginCycle_keys (s : State) (rnd : Option Byte) : (s.beginCycle rnd).keys = s.keys := rfl
@[simp] theorem beginCycle_mem (s : State) (rnd : Option Byte) : (s.beginCycle rnd).mem = s.mem := rfl
@[simp] theorem beginCycle_fault (s : State) (rnd : Option Byte) : (s.beginCycle rnd).fault = s.fault := rfl
@[simp] theorem beginCycle_tickPend (s : State) (rnd : Option Byte) : (s.beginCycle rnd).tickPend = s.tickPend := rfl
@[simp] theorem beginCycle_faultEvents (s : State) (rnd : Option Byte) : (s.beginCycle rnd).faultEvents = s.faultEvents := rfl
@[simp] theorem beginCycle_started (s : State) (rnd : Option Byte) : (s.beginCycle rnd).started = true := rfl
@[simp] theorem beginCycle_schedule (s : State) (rnd : Option Byte) : (s.beginCycle rnd).schedule = s.schedule := rfl
@[simp] theorem beginCycle_rndPort (s : State) (rnd : Option Byte) : (s.beginCycle rnd).rndPort = rnd := rfl
@[simp] theorem beginCycle_rndDraws (s : State) (rnd : Option Byte) : (s.beginCycle rnd).rndDraws = s.rndDraws := rfl
@[simp] theorem beginCycle_getV (s : State) (rnd : Option Byte) (q : Nibble) : (s.beginCycle rnd).getV q = s.getV q := rfl
@[simp] theorem beginCycle_pixel (s : State) (rnd : Option Byte) (q : Fin 32) (p : Fin 64) : (s.beginCycle rnd).pixel q p = s.pixel q p := rfl
@[simp] theorem beginCycle_key (s : State) (rnd : Option Byte) (q : Nibble) : (s.beginCycle rnd).key q = s.key q := rfl

/-! ## withSchedule -/

@[simp] theorem withSchedule_v (s : State) (es : List Event) : (s.withSchedule es).v = s.v := rfl
@[simp] theorem withSchedule_i (s : State) (es : List Event) : (s.withSchedule es).i = s.i := rfl
@[simp] theorem withSchedule_pc (s : State) (es : List Event) : (s.withSchedule es).pc = s.pc := rfl
@[simp] theorem withSchedule_sp (s : State) (es : List Event) : (s.withSchedule es).sp = s.sp := rfl
@[simp] theorem withSchedule_stack (s : State) (es : List Event) : (s.withSchedule es).stack = s.stack := rfl
@[simp] theorem withSchedule_dt (s : State) (es : List Event) : (s.withSchedule es).dt = s.dt := rfl
@[simp] theorem withSchedule_st (s : State) (es : List Event) : (s.withSchedule es).st = s.st := rfl
@[simp] theorem withSchedule_fb (s : State) (es : List Event) : (s.withSchedule es).fb = s.fb := rfl
@[simp] theorem withSchedule_keys (s : State) (es : List Event) : (s.withSchedule es).keys = s.keys := rfl
@[simp] theorem withSchedule_mem (s : State) (es : List Event) : (s.withSchedule es).mem = s.mem := rfl
@[simp] theorem withSchedule_fault (s : State) (es : List Event) : (s.withSchedule es).fault = s.fault := rfl
@[simp] theorem withSchedule_tickPend (s : State) (es : List Event) : (s.withSchedule es).tickPend = s.tickPend := rfl
@[simp] theorem withSchedule_faultEvents (s : State) (es : List Event) : (s.withSchedule es).faultEvents = s.faultEvents := rfl
@[simp] theorem withSchedule_started (s : State) (es : List Event) : (s.withSchedule es).started = s.started := rfl
@[simp] theorem withSchedule_schedule (s : State) (es : List Event) : (s.withSchedule es).schedule = es := rfl
@[simp] theorem withSchedule_rndPort (s : State) (es : List Event) : (s.withSchedule es).rndPort = s.rndPort := rfl
@[simp] theorem withSchedule_rndDraws (s : State) (es : List Event) : (s.withSchedule es).rndDraws = s.rndDraws := rfl
@[simp] theorem withSchedule_getV (s : State) (es : List Event) (q : Nibble) : (s.withSchedule es).getV q = s.getV q := rfl
@[simp] theorem withSchedule_pixel (s : State) (es : List Event) (q : Fin 32) (p : Fin 64) : (s.withSchedule es).pixel q p = s.pixel q p := rfl
@[simp] theorem withSchedule_key (s : State) (es : List Event) (q : Nibble) : (s.withSchedule es).key q = s.key q := rfl

/-! ## report -/

@[simp] theorem report_v (s : State) (code : FaultCode) (a info : Word) : (report code a info s).v = s.v := rfl
@[simp] theorem report_i (s : State) (code : FaultCode) (a info : Word) : (report code a info s).i = s.i := rfl
@[simp] theorem report_pc (s : State) (code : FaultCode) (a info : Word) : (report code a info s).pc = s.pc := rfl
@[simp] theorem report_sp (s : State) (code : FaultCode) (a info : Word) : (report code a info s).sp = s.sp := rfl
@[simp] theorem report_stack (s : State) (code : FaultCode) (a info : Word) : (report code a info s).stack = s.stack := rfl
@[simp] theorem report_dt (s : State) (code : FaultCode) (a info : Word) : (report code a info s).dt = s.dt := rfl
@[simp] theorem report_st (s : State) (code : FaultCode) (a info : Word) : (report code a info s).st = s.st := rfl
@[simp] theorem report_fb (s : State) (code : FaultCode) (a info : Word) : (report code a info s).fb = s.fb := rfl
@[simp] theorem report_keys (s : State) (code : FaultCode) (a info : Word) : (report code a info s).keys = s.keys := rfl
@[simp] theorem report_mem (s : State) (code : FaultCode) (a info : Word) : (report code a info s).mem = s.mem := rfl
@[simp] theorem report_fault (s : State) (code : FaultCode) (a info : Word) : (report code a info s).fault = s.fault ||| BitVec.twoPow 4 code.bit.val := rfl
@[simp] theorem report_tickPend (s : State) (code : FaultCode) (a info : Word) : (report code a info s).tickPend = s.tickPend := rfl
@[simp] theorem report_faultEvents (s : State) (code : FaultCode) (a info : Word) : (report code a info s).faultEvents = s.faultEvents ++ [{ code := code, pc := a, info := info }] := rfl
@[simp] theorem report_started (s : State) (code : FaultCode) (a info : Word) : (report code a info s).started = s.started := rfl
@[simp] theorem report_schedule (s : State) (code : FaultCode) (a info : Word) : (report code a info s).schedule = s.schedule := rfl
@[simp] theorem report_rndPort (s : State) (code : FaultCode) (a info : Word) : (report code a info s).rndPort = s.rndPort := rfl
@[simp] theorem report_rndDraws (s : State) (code : FaultCode) (a info : Word) : (report code a info s).rndDraws = s.rndDraws := rfl
@[simp] theorem report_getV (s : State) (code : FaultCode) (a info : Word) (q : Nibble) : (report code a info s).getV q = s.getV q := rfl
@[simp] theorem report_pixel (s : State) (code : FaultCode) (a info : Word) (q : Fin 32) (p : Fin 64) : (report code a info s).pixel q p = s.pixel q p := rfl
@[simp] theorem report_key (s : State) (code : FaultCode) (a info : Word) (q : Nibble) : (report code a info s).key q = s.key q := rfl

/-! ## The accessors through their own updates -/

/-- A register write changes that register alone. -/
theorem setV_getV (s : State) (r : Nibble) (b : Byte) (q : Nibble) :
    (s.setV r b).getV q = if r = q then b else s.getV q := by
  simp [State.getV, State.setV, Vector.getElem_set, Fin.ext_iff]

@[simp] theorem setV_getV_same (s : State) (r : Nibble) (b : Byte) : (s.setV r b).getV r = b := by
  simp [setV_getV]

theorem setV_getV_ne (s : State) {r q : Nibble} (b : Byte) (h : r ≠ q) : (s.setV r b).getV q = s.getV q := by
  simp [setV_getV, h]

/-- A pixel write changes that pixel alone. -/
theorem setPixel_pixel (s : State) (y : Fin 32) (x : Fin 64) (b : Bool) (q : Fin 32) (p : Fin 64) :
    (s.setPixel y x b).pixel q p = if y = q ∧ x = p then b else s.pixel q p := by
  rcases eq_or_ne y q with rfl | hy
  · by_cases hx : x = p <;> simp [State.pixel, State.setPixel, Fin.ext_iff] at hx ⊢ <;> simp [hx]
  · have : y.val ≠ q.val := fun h => hy (Fin.ext h)
    simp [State.pixel, State.setPixel, hy, this]

@[simp] theorem clearFb_pixel (s : State) (q : Fin 32) (p : Fin 64) : s.clearFb.pixel q p = false := by
  simp [State.pixel, State.clearFb]

/-- A key write changes that key alone. -/
theorem setKey_key (s : State) (k : Nibble) (b : Bool) (q : Nibble) :
    (s.setKey k b).key q = if k = q then b else s.key q := by
  simp [State.key, State.setKey, Vector.getElem_set, Fin.ext_iff]

end Sys2Proof.Machine
end

