-- ==== Sys2Proof/Laws/Frame.lean ====
section
/-! SUPPORT. How frames and reports compose, and the frame of every single update. -/

namespace Sys2Proof.Machine

/-! ## Frames -/

theorem Part.same_refl (s : State) (p : Part) : p.Same s s := by cases p <;> simp [Part.Same]

theorem Part.same_trans {s t u : State} {p : Part} (h : p.Same s t) (h' : p.Same t u) : p.Same s u := by
  cases p <;> simp only [Part.Same] at h h' ⊢ <;> exact h'.trans h

theorem FrameExcept.refl (w : Part → Prop) (s : State) : FrameExcept w s s := fun p _ => p.same_refl s

theorem FrameExcept.trans {w : Part → Prop} {s t u : State} (h : FrameExcept w s t) (h' : FrameExcept w t u) :
    FrameExcept w s u := fun p hp => Part.same_trans (h p hp) (h' p hp)

theorem FrameExcept.mono {w w' : Part → Prop} {s t : State} (h : FrameExcept w s t) (hw : ∀ p, w p → w' p) :
    FrameExcept w' s t := fun p hp => h p (fun hw' => hp (hw p hw'))

/-! ## The frame of each update -/

theorem setV_frame (s : State) (r : Nibble) (b : Byte) : FrameExcept (fun p => p = .v r) s (s.setV r b) := by
  intro p hp
  cases p <;> simp [Part.Same]
  next q => exact setV_getV_ne s b (fun h => hp (by rw [h]))

theorem setI_frame (s : State) (w : Word) : FrameExcept (fun p => p = .i) s (s.setI w) := by
  intro p hp; cases p <;> simp_all [Part.Same]

theorem setPc_frame (s : State) (w : Word) : FrameExcept (fun p => p = .pc) s (s.setPc w) := by
  intro p hp; cases p <;> simp_all [Part.Same]

theorem setDt_frame (s : State) (b : Byte) : FrameExcept (fun p => p = .dt) s (s.setDt b) := by
  intro p hp; cases p <;> simp_all [Part.Same]

theorem setSt_frame (s : State) (b : Byte) : FrameExcept (fun p => p = .st) s (s.setSt b) := by
  intro p hp; cases p <;> simp_all [Part.Same]

theorem setPixel_frame (s : State) (y : Fin 32) (x : Fin 64) (b : Bool) :
    FrameExcept (fun p => p = .pixel y x) s (s.setPixel y x b) := by
  intro p hp
  cases p <;> simp [Part.Same]
  next q r =>
    rw [setPixel_pixel, if_neg]
    rintro ⟨rfl, rfl⟩
    exact hp rfl

theorem clearFb_frame (s : State) : FrameExcept (fun p => ∃ y x, p = .pixel y x) s s.clearFb := by
  intro p hp
  cases p <;> simp [Part.Same]
  next q r => exact (hp ⟨q, r, rfl⟩).elim

theorem setKey_frame (s : State) (k : Nibble) (b : Bool) : FrameExcept (fun p => p = .key k) s (s.setKey k b) := by
  intro p hp
  cases p <;> simp [Part.Same]
  next q =>
    rw [setKey_key, if_neg]
    rintro rfl
    exact hp rfl

theorem countDraw_frame (s : State) : FrameExcept (fun p => p = .rndDraws) s s.countDraw := by
  intro p hp; cases p <;> simp_all [Part.Same]

theorem withSchedule_frame (s : State) (es : List Event) :
    FrameExcept (fun p => p = .schedule) s (s.withSchedule es) := by
  intro p hp; cases p <;> simp_all [Part.Same]

/-- Reporting changes FAULT and the event list and nothing else (60_exceptions.md R141). -/
theorem report_frame (code : FaultCode) (a info : Word) (s : State) :
    FrameExcept (fun p => p = .fault ∨ p = .faultEvents) s (report code a info s) := by
  intro p hp; cases p <;> simp_all [Part.Same]

/-! ## Reports -/

theorem faultAfter_append (f : BitVec 4) (es es' : List FaultEvent) :
    faultAfter f (es ++ es') = faultAfter (faultAfter f es) es' := by
  simp [faultAfter, List.foldl_append]

theorem Reports.refl (s : State) : Reports s s [] := by simp [Reports, faultAfter]

theorem Reports.trans {s t u : State} {es es' : List FaultEvent} (h : Reports s t es) (h' : Reports t u es') :
    Reports s u (es ++ es') := by
  obtain ⟨h1, h2⟩ := h
  obtain ⟨h3, h4⟩ := h'
  exact ⟨by rw [h3, h1, List.append_assoc], by rw [h4, h2, faultAfter_append]⟩

/-- A change that leaves FAULT and the event list alone reports nothing. -/
theorem Reports.of_same {s t : State} (h : t.faultEvents = s.faultEvents) (h' : t.fault = s.fault) :
    Reports s t [] := by simp [Reports, faultAfter, h, h']

theorem report_reports (code : FaultCode) (a info : Word) (s : State) :
    Reports s (report code a info s) [{ code := code, pc := a, info := info }] := by
  simp [Reports, faultAfter]

/-- The reports of n + 1 accesses are those of the first n and that of the last. -/
theorem rangeEvents_succ (a : Word) (ea n : Nat) :
    rangeEvents a ea (n + 1) = rangeEvents a ea n ++ rangeEvents a (ea + n) 1 := by
  simp only [rangeEvents, List.range_succ, List.filter_append, List.map_append]
  congr 1
  simp [List.filter_cons]
  split <;> simp

@[simp] theorem rangeEvents_zero (a : Word) (ea : Nat) : rangeEvents a ea 0 = [] := rfl

/-- Accesses inside the address space report nothing. -/
theorem rangeEvents_inRange (a : Word) {ea n : Nat} (h : ea + n ≤ 4096) : rangeEvents a ea n = [] := by
  simp only [rangeEvents, List.map_eq_nil_iff, List.filter_eq_nil_iff, List.mem_range, decide_eq_true_eq]
  omega

/-- A bit of FAULT after a list of events: set before, or set by one of them. -/
theorem faultAfter_getLsbD (f : BitVec 4) (es : List FaultEvent) (c : FaultCode) :
    (faultAfter f es).getLsbD c.bit.val = (f.getLsbD c.bit.val || es.any (fun e => e.code == c)) := by
  induction es generalizing f with
  | nil => simp [faultAfter]
  | cons e es ih =>
    rw [show faultAfter f (e :: es) = faultAfter (f ||| BitVec.twoPow 4 e.code.bit.val) es from rfl, ih]
    rcases e with ⟨d, a, i⟩
    have hb : ∀ c d : FaultCode, (c == d) = decide (c = d) := fun _ _ => rfl
    cases d <;> cases c <;> simp [FaultCode.bit, hb]

end Sys2Proof.Machine
end

