-- ==== Sys2Proof/Laws/Ops.lean ====
section
/-! SUPPORT. What each shared operation does, said once: the memory primitives, the skip, the stack, the key mask,
the random draw. -/

namespace Sys2Proof.Machine

/-! ## The range report and the memory primitives (20_memory.md R35 to R37) -/

theorem reportRange_frame (a : Word) (ea : Nat) (s : State) :
    FrameExcept (fun p => p = .fault ∨ p = .faultEvents) s (reportRange a ea s) := by
  unfold reportRange
  split
  · exact report_frame _ _ _ _
  · exact FrameExcept.refl _ _

theorem reportRange_reports (a : Word) (ea : Nat) (s : State) :
    Reports s (reportRange a ea s) (rangeEvents a ea 1) := by
  unfold reportRange
  split
  · next h => simpa [rangeEvents, h] using report_reports .addr a (BitVec.ofNat 16 ea) s
  · next h => simpa [rangeEvents, h] using Reports.refl s

/-- A range report is the update of FAULT and of the event list it stands for. -/
theorem reportRange_eq (a : Word) (ea : Nat) (s : State) :
    reportRange a ea s =
      { s with fault := faultAfter s.fault (rangeEvents a ea 1), faultEvents := s.faultEvents ++ rangeEvents a ea 1 } := by
  unfold reportRange
  split <;> simp_all [rangeEvents, faultAfter, report]

@[simp] theorem reportRange_v (a : Word) (ea : Nat) (s : State) : (reportRange a ea s).v = s.v := by rw [reportRange_eq]
@[simp] theorem reportRange_i (a : Word) (ea : Nat) (s : State) : (reportRange a ea s).i = s.i := by rw [reportRange_eq]
@[simp] theorem reportRange_pc (a : Word) (ea : Nat) (s : State) : (reportRange a ea s).pc = s.pc := by rw [reportRange_eq]
@[simp] theorem reportRange_sp (a : Word) (ea : Nat) (s : State) : (reportRange a ea s).sp = s.sp := by rw [reportRange_eq]
@[simp] theorem reportRange_stack (a : Word) (ea : Nat) (s : State) : (reportRange a ea s).stack = s.stack := by
  rw [reportRange_eq]
@[simp] theorem reportRange_dt (a : Word) (ea : Nat) (s : State) : (reportRange a ea s).dt = s.dt := by rw [reportRange_eq]
@[simp] theorem reportRange_st (a : Word) (ea : Nat) (s : State) : (reportRange a ea s).st = s.st := by rw [reportRange_eq]
@[simp] theorem reportRange_fb (a : Word) (ea : Nat) (s : State) : (reportRange a ea s).fb = s.fb := by rw [reportRange_eq]
@[simp] theorem reportRange_keys (a : Word) (ea : Nat) (s : State) : (reportRange a ea s).keys = s.keys := by
  rw [reportRange_eq]
@[simp] theorem reportRange_mem (a : Word) (ea : Nat) (s : State) : (reportRange a ea s).mem = s.mem := by
  rw [reportRange_eq]
@[simp] theorem reportRange_tickPend (a : Word) (ea : Nat) (s : State) : (reportRange a ea s).tickPend = s.tickPend := by
  rw [reportRange_eq]
@[simp] theorem reportRange_started (a : Word) (ea : Nat) (s : State) : (reportRange a ea s).started = s.started := by
  rw [reportRange_eq]
@[simp] theorem reportRange_schedule (a : Word) (ea : Nat) (s : State) : (reportRange a ea s).schedule = s.schedule := by
  rw [reportRange_eq]
@[simp] theorem reportRange_rndPort (a : Word) (ea : Nat) (s : State) : (reportRange a ea s).rndPort = s.rndPort := by
  rw [reportRange_eq]
@[simp] theorem reportRange_rndDraws (a : Word) (ea : Nat) (s : State) : (reportRange a ea s).rndDraws = s.rndDraws := by
  rw [reportRange_eq]
@[simp] theorem reportRange_getV (a : Word) (ea : Nat) (s : State) (q : Nibble) :
    (reportRange a ea s).getV q = s.getV q := by rw [reportRange_eq]; rfl
@[simp] theorem reportRange_pixel (a : Word) (ea : Nat) (s : State) (q : Fin 32) (p : Fin 64) :
    (reportRange a ea s).pixel q p = s.pixel q p := by rw [reportRange_eq]; rfl

@[simp] theorem memRead_fst (a : Word) (ea : Nat) (s : State) :
    (memRead a ea s).1 = Memory.read s.mem (ea % 4096) := rfl

@[simp] theorem memRead_snd (a : Word) (ea : Nat) (s : State) : (memRead a ea s).2 = reportRange a ea s := rfl

/-- `MemWrite` writes the wrapped byte and no other (R37). -/
theorem memWrite_read (a : Word) (ea : Nat) (b : Byte) (s : State) (c : Nat) :
    Memory.read (memWrite a ea b s).mem c = if ea % 4096 = c then b else Memory.read s.mem c :=
  read_write ..

theorem memWrite_reports (a : Word) (ea : Nat) (b : Byte) (s : State) :
    Reports s (memWrite a ea b s) (rangeEvents a ea 1) := by
  have h := reportRange_reports a ea s
  exact ⟨h.1, h.2⟩

theorem memWrite_frame (a : Word) (ea : Nat) (b : Byte) (s : State) :
    FrameExcept (fun p => p = .mem (ea % 4096) ∨ p = .fault ∨ p = .faultEvents) s (memWrite a ea b s) := by
  intro p hp
  have h := reportRange_frame a ea s p (fun h => hp (.inr h))
  cases p <;> try exact h
  next c =>
    show Memory.read _ _ = _
    rw [memWrite_read, if_neg]
    rintro rfl
    exact hp (.inl rfl)

@[simp] theorem memWrite_i (a : Word) (ea : Nat) (b : Byte) (s : State) : (memWrite a ea b s).i = s.i := by
  simp [memWrite]

@[simp] theorem memWrite_getV (a : Word) (ea : Nat) (b : Byte) (s : State) (q : Nibble) :
    (memWrite a ea b s).getV q = s.getV q := reportRange_getV a ea s q

@[simp] theorem memWrite_pc (a : Word) (ea : Nat) (b : Byte) (s : State) : (memWrite a ea b s).pc = s.pc := by
  simp [memWrite]

@[simp] theorem memWrite_schedule (a : Word) (ea : Nat) (b : Byte) (s : State) :
    (memWrite a ea b s).schedule = s.schedule := by simp [memWrite]

@[simp] theorem memWrite_started (a : Word) (ea : Nat) (b : Byte) (s : State) :
    (memWrite a ea b s).started = s.started := by simp [memWrite]

/-- `MemWrite` keeps the canonical form of memory. -/
theorem memWrite_wf (a : Word) (ea : Nat) (b : Byte) {s : State} (h : Memory.wf s.mem) :
    Memory.wf (memWrite a ea b s).mem := wf_write b (Nat.mod_lt _ (by decide)) h

/-! ## The skip (40_flow.md R71) -/

theorem skipIf_eq (c : Bool) (s : State) : skipIf c s = s.setPc (if c then s.pc + 2 else s.pc) := by
  cases c <;> rfl

theorem skipIf_frame (c : Bool) (s : State) : FrameExcept (fun p => p = .pc) s (skipIf c s) := by
  rw [skipIf_eq]; exact setPc_frame _ _

/-! ## The stack (40_flow.md R72, R75) -/

theorem callTo_full (op target : Word) {s : State} (h : s.sp.val = 16) :
    callTo op target s = report .stkOvf s.instrAddr op s := by
  rw [callTo, dif_neg (by omega)]

theorem callTo_push (op target : Word) {s : State} (h : s.sp.val < 16) :
    callTo op target s =
      { s with stack := s.stack.set s.sp.val s.pc, sp := ⟨s.sp.val + 1, by omega⟩, pc := target } := by
  rw [callTo, dif_pos h]

theorem popReturn_empty (op : Word) {s : State} (h : s.sp.val = 0) :
    popReturn op s = report .stkUnf s.instrAddr op s := by
  rw [popReturn, dif_neg (by omega)]

theorem popReturn_pop (op : Word) {s : State} (h : 0 < s.sp.val) :
    popReturn op s =
      { s with sp := ⟨s.sp.val - 1, by omega⟩, pc := s.stack[s.sp.val - 1]'(by omega) } := by
  rw [popReturn, dif_pos h]

/-! ## Keys (44_timers_input.md R135, R136) -/

theorem keyMask_getLsbD (s : State) (k : Nibble) : s.keyMask.getLsbD k.val = s.key k := by
  simp [State.keyMask]

theorem keyMask_eq_zero (s : State) : s.keyMask = 0 ↔ ∀ k, s.key k = false := by
  constructor
  · intro h k
    rw [← keyMask_getLsbD, h]; simp
  · intro h
    apply BitVec.eq_of_getLsbD_eq
    intro k hk
    simpa [h] using keyMask_getLsbD s ⟨k, hk⟩

theorem lowestKey_pressed {mask : BitVec 16} (h : mask ≠ 0) : mask.getLsbD (lowestKey mask).val = true := by
  unfold lowestKey
  cases hf : (List.finRange 16).find? (fun k => mask.getLsbD k.val) with
  | some k => simpa using List.find?_some hf
  | none =>
    exfalso
    apply h
    apply BitVec.eq_of_getLsbD_eq
    intro k hk
    simpa using List.find?_eq_none.1 hf ⟨k, hk⟩ (List.mem_finRange _)

/-- The law of `KEYSEL` (R136): the selected key is a pressed one. -/
theorem keysel_pressed {mask : BitVec 16} (h : mask ≠ 0) : mask.getLsbD (keysel mask).val = true := by
  unfold keysel
  split
  · exact lowestKey_pressed h
  · split
    · assumption
    · exact lowestKey_pressed h

end Sys2Proof.Machine
end

