-- ==== Sys2Proof/Laws/Display.lean ====
section
/-! SUPPORT. What the sprite engine of 43_display.md does, said once: which pixels a row byte and a sprite toggle, and
when VF becomes 1. -/

namespace Sys2Proof.Machine

/-! ## One pixel -/

theorem togglePixel_pixel (y : Fin 32) (x : Fin 64) (s : State) (q : Fin 32) (p : Fin 64) :
    (togglePixel y x s).pixel q p = if y = q ∧ x = p then !s.pixel q p else s.pixel q p := by
  unfold togglePixel
  by_cases h : s.pixel y x = true
  · rw [if_pos h, setV_pixel, setPixel_pixel]
    split
    · next hh => obtain ⟨rfl, rfl⟩ := hh; rw [h]; rfl
    · rfl
  · rw [if_neg h, setPixel_pixel]
    split
    · next hh => obtain ⟨rfl, rfl⟩ := hh; simp_all
    · rfl

theorem togglePixel_vf (y : Fin 32) (x : Fin 64) (s : State) :
    (togglePixel y x s).getV 15 = if s.pixel y x = true then 1 else s.getV 15 := by
  unfold togglePixel
  split <;> simp

theorem togglePixel_frame (y : Fin 32) (x : Fin 64) (s : State) :
    FrameExcept (fun p => (∃ q r, p = .pixel q r) ∨ p = .v 15) s (togglePixel y x s) := by
  unfold togglePixel
  split
  · exact ((setPixel_frame s y x false).mono (fun p h => .inl ⟨y, x, h⟩)).trans
      ((setV_frame _ 15 1).mono (fun p h => .inr h))
  · exact (setPixel_frame s y x true).mono (fun p h => .inl ⟨y, x, h⟩)

/-! ## A loop that toggles some pixels of an injective family -/

/-- A set bit at `column` falls on pixel `(p, q)` of row `y`. -/
def BitAt (b x0 : Byte) (y : Fin 32) (n : Nat) (q : Fin 32) (p : Fin 64) : Prop :=
  y = q ∧ ∃ c, c < n ∧ spriteBit b c = true ∧ drawColumn x0 c = p

theorem drawColumn_inj {x0 : Byte} {c d : Nat} (hc : c < 8) (hd : d < 8) (h : drawColumn x0 c = drawColumn x0 d) :
    c = d := by
  have := congrArg Fin.val h
  simp only [drawColumn, Fin.ofNat] at this
  omega

/-- The first `n` columns of a row byte. -/
def drawBits (b x0 : Byte) (y : Fin 32) (n : Nat) (s : State) : State := (List.range n).foldl (drawBit b x0 y) s

theorem drawByte_eq (b x0 : Byte) (y : Fin 32) (s : State) : drawByte b x0 y s = drawBits b x0 y 8 s := rfl

theorem drawBits_succ (b x0 : Byte) (y : Fin 32) (n : Nat) (s : State) :
    drawBits b x0 y (n + 1) s = drawBit b x0 y (drawBits b x0 y n s) n := by
  simp [drawBits, List.range_succ, List.foldl_append]

theorem bitAt_succ {b x0 : Byte} {y : Fin 32} {n : Nat} {q : Fin 32} {p : Fin 64} :
    BitAt b x0 y (n + 1) q p ↔ BitAt b x0 y n q p ∨ (y = q ∧ spriteBit b n = true ∧ drawColumn x0 n = p) := by
  constructor
  · rintro ⟨hy, c, hc, h⟩
    rcases Nat.lt_succ_iff_lt_or_eq.1 hc with hc | rfl
    · exact .inl ⟨hy, c, hc, h⟩
    · exact .inr ⟨hy, h⟩
  · rintro (⟨hy, c, hc, h⟩ | ⟨hy, h⟩)
    · exact ⟨hy, c, by omega, h⟩
    · exact ⟨hy, n, by omega, h⟩

/-- Column n is new: no earlier column of the byte falls on its pixel. -/
theorem not_bitAt_column {b x0 : Byte} {y : Fin 32} {n : Nat} (hn : n < 8) {q : Fin 32} :
    ¬ BitAt b x0 y n q (drawColumn x0 n) := by
  rintro ⟨-, c, hc, -, h⟩
  have := drawColumn_inj (by omega) hn h
  omega

theorem drawBits_pixel (b x0 : Byte) (y : Fin 32) (n : Nat) (hn : n ≤ 8) (s : State) (q : Fin 32) (p : Fin 64) :
    (BitAt b x0 y n q p → (drawBits b x0 y n s).pixel q p = !s.pixel q p) ∧
    (¬ BitAt b x0 y n q p → (drawBits b x0 y n s).pixel q p = s.pixel q p) := by
  induction n with
  | zero => exact ⟨fun ⟨_, c, hc, _⟩ => absurd hc (by omega), fun _ => rfl⟩
  | succ n ih =>
    obtain ⟨ih1, ih2⟩ := ih (by omega)
    rw [drawBits_succ, drawBit, bitAt_succ]
    by_cases hb : spriteBit b n = true
    · rw [if_pos hb, togglePixel_pixel]
      by_cases hp : y = q ∧ drawColumn x0 n = p
      · have hno : ¬ BitAt b x0 y n q p := by obtain ⟨-, rfl⟩ := hp; exact not_bitAt_column (by omega)
        rw [if_pos hp, ih2 hno]
        exact ⟨fun _ => rfl, fun h => absurd (.inr ⟨hp.1, hb, hp.2⟩) h⟩
      · rw [if_neg hp]
        refine ⟨fun h => ?_, fun h => ih2 (fun h' => h (.inl h'))⟩
        rcases h with h | ⟨h1, -, h2⟩
        · exact ih1 h
        · exact absurd ⟨h1, h2⟩ hp
    · rw [if_neg hb]
      refine ⟨fun h => ?_, fun h => ih2 (fun h' => h (.inl h'))⟩
      rcases h with h | ⟨-, h, -⟩
      · exact ih1 h
      · exact absurd h hb

theorem drawBits_vf (b x0 : Byte) (y : Fin 32) (n : Nat) (hn : n ≤ 8) (s : State) :
    ((∃ q p, BitAt b x0 y n q p ∧ s.pixel q p = true) → (drawBits b x0 y n s).getV 15 = 1) ∧
    ((∀ q p, BitAt b x0 y n q p → s.pixel q p = false) → (drawBits b x0 y n s).getV 15 = s.getV 15) := by
  induction n with
  | zero => exact ⟨fun ⟨_, _, ⟨_, c, hc, _⟩, _⟩ => absurd hc (by omega), fun _ => rfl⟩
  | succ n ih =>
    obtain ⟨ih1, ih2⟩ := ih (by omega)
    rw [drawBits_succ, drawBit]
    have hpix : (drawBits b x0 y n s).pixel y (drawColumn x0 n) = s.pixel y (drawColumn x0 n) :=
      (drawBits_pixel b x0 y n (by omega) s _ _).2 (not_bitAt_column (by omega))
    by_cases hb : spriteBit b n = true
    · rw [if_pos hb, togglePixel_vf, hpix]
      constructor
      · rintro ⟨q, p, hqp, hs⟩
        split
        · rfl
        · next h =>
          rcases bitAt_succ.1 hqp with h' | ⟨rfl, -, rfl⟩
          · exact ih1 ⟨q, p, h', hs⟩
          · exact absurd hs h
      · intro h
        rw [if_neg (by rw [h _ _ (bitAt_succ.2 (.inr ⟨rfl, hb, rfl⟩))]; decide)]
        exact ih2 (fun q p h' => h q p (bitAt_succ.2 (.inl h')))
    · rw [if_neg hb]
      constructor
      · rintro ⟨q, p, hqp, hs⟩
        rcases bitAt_succ.1 hqp with h' | ⟨-, h', -⟩
        · exact ih1 ⟨q, p, h', hs⟩
        · exact absurd h' hb
      · exact fun h => ih2 (fun q p h' => h q p (bitAt_succ.2 (.inl h')))

theorem drawBits_frame (b x0 : Byte) (y : Fin 32) (n : Nat) (s : State) :
    FrameExcept (fun p => (∃ q r, p = .pixel q r) ∨ p = .v 15) s (drawBits b x0 y n s) := by
  induction n with
  | zero => exact FrameExcept.refl _ _
  | succ n ih =>
    rw [drawBits_succ, drawBit]
    split
    · exact ih.trans (togglePixel_frame _ _ _)
    · exact ih

@[simp] theorem drawBits_mem (b x0 : Byte) (y : Fin 32) (n : Nat) (s : State) : (drawBits b x0 y n s).mem = s.mem := by
  induction n with
  | zero => rfl
  | succ n ih =>
    rw [drawBits_succ, drawBit]
    split
    · unfold togglePixel; split <;> simp [ih]
    · exact ih

theorem drawBits_i (b x0 : Byte) (y : Fin 32) (n : Nat) (s : State) : (drawBits b x0 y n s).i = s.i :=
  drawBits_frame b x0 y n s .i (by rintro (⟨_, _, h⟩ | h) <;> cases h)

/-! ## The rows of a sprite -/

@[simp] theorem drawSprite_zero (a : Word) (x0 y0 : Byte) (s : State) : drawSprite a x0 y0 0 s = s := rfl

theorem drawSprite_succ (a : Word) (x0 y0 : Byte) (n : Nat) (s : State) :
    drawSprite a x0 y0 (n + 1) s = drawSpriteRow a x0 y0 (drawSprite a x0 y0 n s) n := by
  simp [drawSprite, List.range_succ, List.foldl_append]

@[simp] theorem drawSprite_mem (a : Word) (x0 y0 : Byte) (n : Nat) (s : State) :
    (drawSprite a x0 y0 n s).mem = s.mem := by
  induction n with
  | zero => rfl
  | succ n ih => rw [drawSprite_succ, drawSpriteRow, drawByte_eq]; simp [ih]

theorem drawSprite_frame (a : Word) (x0 y0 : Byte) (n : Nat) (s : State) :
    FrameExcept (fun p => (∃ q r, p = .pixel q r) ∨ p = .v 15 ∨ p = .fault ∨ p = .faultEvents) s
      (drawSprite a x0 y0 n s) := by
  induction n with
  | zero => exact FrameExcept.refl _ _
  | succ n ih =>
    rw [drawSprite_succ, drawSpriteRow, drawByte_eq]
    refine ih.trans (((reportRange_frame _ _ _).mono ?_).trans ((drawBits_frame _ _ _ _ _).mono ?_))
    · exact fun p h => .inr (.inr h)
    · exact fun p h => h.imp id .inl

theorem drawSprite_dataAddr (a : Word) (x0 y0 : Byte) (n : Nat) (s : State) (k : Nat) :
    dataAddr (drawSprite a x0 y0 n s) k = dataAddr s k := by
  have : (drawSprite a x0 y0 n s).i = s.i := drawSprite_frame a x0 y0 n s .i (by simp)
  simp [dataAddr, this]

theorem drawSprite_reports (a : Word) (x0 y0 : Byte) (n : Nat) (s : State) :
    Reports s (drawSprite a x0 y0 n s) (rangeEvents a s.i.toNat n) := by
  induction n with
  | zero => exact Reports.refl s
  | succ n ih =>
    rw [drawSprite_succ, rangeEvents_succ, drawSpriteRow, drawByte_eq, drawSprite_dataAddr]
    refine ih.trans ?_
    have h := reportRange_reports a (s.i.toNat + n) (drawSprite a x0 y0 n s)
    have hf := drawBits_frame (memRead a (dataAddr s n) (drawSprite a x0 y0 n s)).1 x0 (drawRow y0 n) 8
      (memRead a (dataAddr s n) (drawSprite a x0 y0 n s)).2
    exact ⟨(hf .faultEvents (by simp)).trans h.1, (hf .fault (by simp)).trans h.2⟩

/-- Row r of the sprite, as a set of pixels. -/
def RowAt (s : State) (x0 y0 : Byte) (r : Nat) (q : Fin 32) (p : Fin 64) : Prop :=
  BitAt (Memory.read s.mem (dataAddr s r % 4096)) x0 (drawRow y0 r) 8 q p

/-- The pixels a sprite covers are those of its rows (Safety's predicate, in the engine's terms). -/
theorem spriteCovers_iff (s : State) (x0 y0 : Byte) (n : Nat) (q : Fin 32) (p : Fin 64) :
    s.SpriteCovers x0 y0 n q p ↔ ∃ r, r < n ∧ RowAt s x0 y0 r q p := by
  simp only [State.SpriteCovers, RowAt, BitAt, drawRow, drawColumn, spriteBit, Fin.ext_iff, Fin.ofNat]
  constructor
  · rintro ⟨r, c, hr, hc, hy, hx, hb⟩
    exact ⟨r, hr, hy.symm, c, hc, hb, hx.symm⟩
  · rintro ⟨r, hr, hy, c, hc, hb, hx⟩
    exact ⟨r, c, hr, hc, hy.symm, hx.symm, hb⟩

theorem drawRow_inj {y0 : Byte} {r r' : Nat} (hr : r < 16) (hr' : r' < 16) (h : drawRow y0 r = drawRow y0 r') :
    r = r' := by
  have := congrArg Fin.val h
  simp only [drawRow, Fin.ofNat] at this
  omega

/-- Rows are disjoint: no earlier row of a sprite falls on a pixel of row n. -/
theorem not_covers_row {s : State} {x0 y0 : Byte} {n : Nat} (hn : n < 16) {q : Fin 32} {p : Fin 64}
    (h : RowAt s x0 y0 n q p) : ¬ s.SpriteCovers x0 y0 n q p := by
  rw [spriteCovers_iff]
  rintro ⟨r, hr, h'⟩
  have := drawRow_inj (y0 := y0) (by omega) hn (h'.1.trans h.1.symm)
  omega

theorem spriteCovers_succ (s : State) (x0 y0 : Byte) (n : Nat) (q : Fin 32) (p : Fin 64) :
    s.SpriteCovers x0 y0 (n + 1) q p ↔ s.SpriteCovers x0 y0 n q p ∨ RowAt s x0 y0 n q p := by
  simp only [spriteCovers_iff]
  constructor
  · rintro ⟨r, hr, h⟩
    rcases Nat.lt_succ_iff_lt_or_eq.1 hr with hr | rfl
    · exact .inl ⟨r, hr, h⟩
    · exact .inr h
  · rintro (⟨r, hr, h⟩ | h)
    · exact ⟨r, by omega, h⟩
    · exact ⟨n, by omega, h⟩

/-- A sprite of at most 16 rows toggles exactly the pixels it covers (R122). -/
theorem drawSprite_pixel (a : Word) (x0 y0 : Byte) (n : Nat) (hn : n ≤ 16) (s : State) (q : Fin 32) (p : Fin 64) :
    (s.SpriteCovers x0 y0 n q p → (drawSprite a x0 y0 n s).pixel q p = !s.pixel q p) ∧
    (¬ s.SpriteCovers x0 y0 n q p → (drawSprite a x0 y0 n s).pixel q p = s.pixel q p) := by
  induction n with
  | zero => exact ⟨fun ⟨r, _, hr, _⟩ => absurd hr (by omega), fun _ => rfl⟩
  | succ n ih =>
    obtain ⟨ih1, ih2⟩ := ih (by omega)
    rw [drawSprite_succ, drawSpriteRow, drawByte_eq, drawSprite_dataAddr, spriteCovers_succ]
    obtain ⟨h1, h2⟩ := drawBits_pixel (Memory.read s.mem (dataAddr s n % 4096)) x0 (drawRow y0 n) 8 (by omega)
      (reportRange a (dataAddr s n) (drawSprite a x0 y0 n s)) q p
    rw [reportRange_pixel] at h1 h2
    rw [memRead_fst, memRead_snd, drawSprite_mem]
    by_cases hrow : RowAt s x0 y0 n q p
    · rw [h1 hrow, ih2 (not_covers_row (by omega) hrow)]
      exact ⟨fun _ => rfl, fun h => absurd (.inr hrow) h⟩
    · rw [h2 hrow]
      exact ⟨fun h => ih1 (h.resolve_right hrow), fun h => ih2 (fun h' => h (.inl h'))⟩

/-- VF becomes 1 exactly when a covered pixel was on (R122). -/
theorem drawSprite_vf (a : Word) (x0 y0 : Byte) (n : Nat) (hn : n ≤ 16) (s : State) :
    ((∃ q p, s.SpriteCovers x0 y0 n q p ∧ s.pixel q p = true) → (drawSprite a x0 y0 n s).getV 15 = 1) ∧
    ((∀ q p, s.SpriteCovers x0 y0 n q p → s.pixel q p = false) → (drawSprite a x0 y0 n s).getV 15 = s.getV 15) := by
  induction n with
  | zero => exact ⟨fun ⟨_, _, ⟨r, _, hr, _⟩, _⟩ => absurd hr (by omega), fun _ => rfl⟩
  | succ n ih =>
    obtain ⟨ih1, ih2⟩ := ih (by omega)
    obtain ⟨h1, h2⟩ := drawBits_vf (Memory.read s.mem (dataAddr s n % 4096)) x0 (drawRow y0 n) 8 (by omega)
      (reportRange a (dataAddr s n) (drawSprite a x0 y0 n s))
    simp only [reportRange_pixel, reportRange_getV] at h1 h2
    have hsame : ∀ q p, RowAt s x0 y0 n q p → (drawSprite a x0 y0 n s).pixel q p = s.pixel q p :=
      fun q p h => (drawSprite_pixel a x0 y0 n (by omega) s q p).2 (not_covers_row (by omega) h)
    rw [drawSprite_succ, drawSpriteRow, drawByte_eq, drawSprite_dataAddr, memRead_fst, memRead_snd, drawSprite_mem]
    constructor
    · rintro ⟨q, p, hqp, hs⟩
      by_cases hrow : ∃ q p, RowAt s x0 y0 n q p ∧ s.pixel q p = true
      · obtain ⟨q', p', h, h'⟩ := hrow
        exact h1 ⟨q', p', h, (hsame q' p' h).trans h'⟩
      · have hno : ∀ q p, RowAt s x0 y0 n q p → s.pixel q p = false := fun q p h =>
          Bool.eq_false_iff.2 (fun h' => hrow ⟨q, p, h, h'⟩)
        rw [h2 (fun q p h => (hsame q p h).trans (hno q p h))]
        rcases (spriteCovers_succ s x0 y0 n q p).1 hqp with h | h
        · exact ih1 ⟨q, p, h, hs⟩
        · exact absurd ⟨q, p, h, hs⟩ hrow
    · intro h
      rw [h2 (fun q p h' => (hsame q p h').trans (h q p ((spriteCovers_succ ..).2 (.inr h'))))]
      exact ih2 (fun q p h' => h q p ((spriteCovers_succ ..).2 (.inl h')))

end Sys2Proof.Machine
end

