-- ==== Sys2Proof/Laws/Flags.lean ====
section
/-! SUPPORT. The write law of 41_alu.md R91. -/

namespace Sys2Proof.Machine

/-- VF ends as the flag, whatever X is (R91 point 3). -/
@[simp] theorem writeWithFlag_flag (x : Nibble) (result : Byte) (flag : Bool) (s : State) :
    (writeWithFlag x result flag s).getV 15 = flagByte flag := by
  simp [writeWithFlag]

/-- VX ends as the result unless X = 15. -/
theorem writeWithFlag_result {x : Nibble} (result : Byte) (flag : Bool) (s : State) (h : x ≠ 15) :
    (writeWithFlag x result flag s).getV x = result := by
  rw [writeWithFlag, setV_getV_ne _ _ (Ne.symm h), setV_getV_same]

theorem writeWithFlag_frame (x : Nibble) (result : Byte) (flag : Bool) (s : State) :
    FrameExcept (fun p => p = .v x ∨ p = .v 15) s (writeWithFlag x result flag s) :=
  ((setV_frame s x result).mono fun _ => .inl).trans ((setV_frame _ 15 _).mono fun _ => .inr)

end Sys2Proof.Machine
end

