-- ==== Sys2Proof/Laws/Index.lean ====
section
/-! SUPPORT. What the memory loops of 42_index_memory.md do, said once each: FX33's three writes, FX55's store loop,
FX65's load loop. -/

namespace Sys2Proof.Machine

/-- Two of at most sixteen bytes at I never wrap onto each other. -/
theorem dataAddr_mod_inj {s : State} {j k : Nat} (hj : j < 16) (hk : k < 16)
    (h : dataAddr s j % 4096 = dataAddr s k % 4096) : j = k := by
  unfold dataAddr at h; omega

/-! ## FX55 (R114) -/

@[simp] theorem storeRegs_zero (a : Word) (s : State) : storeRegs a 0 s = s := rfl

theorem storeRegs_succ (a : Word) (n : Nat) (s : State) :
    storeRegs a (n + 1) s = storeReg a (storeRegs a n s) n := by
  simp [storeRegs, List.range_succ, List.foldl_append]

@[simp] theorem storeRegs_i (a : Word) (n : Nat) (s : State) : (storeRegs a n s).i = s.i := by
  induction n with
  | zero => rfl
  | succ n ih => rw [storeRegs_succ, storeReg, memWrite_i, ih]

@[simp] theorem storeRegs_getV (a : Word) (n : Nat) (s : State) (q : Nibble) :
    (storeRegs a n s).getV q = s.getV q := by
  induction n with
  | zero => rfl
  | succ n ih => rw [storeRegs_succ, storeReg, memWrite_getV, ih]

theorem storeRegs_dataAddr (a : Word) (n : Nat) (s : State) (k : Nat) :
    dataAddr (storeRegs a n s) k = dataAddr s k := by simp [dataAddr]

/-- The loop writes the bytes of its registers and no other byte. -/
theorem storeRegs_read (a : Word) (n : Nat) (hn : n ≤ 16) (s : State) :
    (∀ k, k < n → Memory.read (storeRegs a n s).mem (dataAddr s k % 4096) = s.getV (Fin.ofNat 16 k)) ∧
    (∀ c, ¬ s.IsDataByte n c → Memory.read (storeRegs a n s).mem c = Memory.read s.mem c) := by
  induction n with
  | zero => simp
  | succ n ih =>
    obtain ⟨ihw, ihf⟩ := ih (by omega)
    simp only [storeRegs_succ, storeReg, memWrite_read, storeRegs_dataAddr, storeRegs_getV]
    refine ⟨fun k hk => ?_, fun c hc => ?_⟩
    · split
      · next h => rw [dataAddr_mod_inj (by omega) (by omega) h]
      · next h => exact ihw k (by rcases Nat.lt_succ_iff_lt_or_eq.1 hk with h' | rfl; exacts [h', (h rfl).elim])
    · rw [if_neg (fun h => hc ⟨n, by omega, h.symm⟩)]
      exact ihf c (fun ⟨k, hk, h⟩ => hc ⟨k, by omega, h⟩)

theorem storeRegs_reports (a : Word) (n : Nat) (s : State) :
    Reports s (storeRegs a n s) (rangeEvents a s.i.toNat n) := by
  induction n with
  | zero => exact Reports.refl s
  | succ n ih =>
    rw [storeRegs_succ, rangeEvents_succ, storeReg, storeRegs_dataAddr]
    exact ih.trans (memWrite_reports ..)

theorem storeRegs_frame (a : Word) (n : Nat) (s : State) :
    FrameExcept (fun p => (∃ c, s.IsDataByte n c ∧ p = .mem c) ∨ p = .fault ∨ p = .faultEvents) s (storeRegs a n s) := by
  induction n with
  | zero => exact FrameExcept.refl _ _
  | succ n ih =>
    rw [storeRegs_succ, storeReg, storeRegs_dataAddr]
    refine (ih.mono ?_).trans ((memWrite_frame _ _ _ _).mono ?_)
    · rintro p (⟨c, ⟨k, hk, h⟩, rfl⟩ | h)
      · exact .inl ⟨c, ⟨k, by omega, h⟩, rfl⟩
      · exact .inr h
    · rintro p (rfl | h)
      · exact .inl ⟨_, ⟨n, by omega, rfl⟩, rfl⟩
      · exact .inr h

/-! ## FX65 (R115) -/

@[simp] theorem loadRegs_zero (a : Word) (s : State) : loadRegs a 0 s = s := rfl

theorem loadRegs_succ (a : Word) (n : Nat) (s : State) :
    loadRegs a (n + 1) s = loadReg a (loadRegs a n s) n := by
  simp [loadRegs, List.range_succ, List.foldl_append]

@[simp] theorem loadRegs_i (a : Word) (n : Nat) (s : State) : (loadRegs a n s).i = s.i := by
  induction n with
  | zero => rfl
  | succ n ih => rw [loadRegs_succ]; simp [loadReg, ih]

@[simp] theorem loadRegs_mem (a : Word) (n : Nat) (s : State) : (loadRegs a n s).mem = s.mem := by
  induction n with
  | zero => rfl
  | succ n ih => rw [loadRegs_succ]; simp [loadReg, ih]

theorem loadRegs_dataAddr (a : Word) (n : Nat) (s : State) (k : Nat) :
    dataAddr (loadRegs a n s) k = dataAddr s k := by simp [dataAddr]

/-- The loop loads the bytes into its registers and leaves the other registers alone. -/
theorem loadRegs_getV (a : Word) (n : Nat) (hn : n ≤ 16) (s : State) (q : Nibble) :
    (loadRegs a n s).getV q = if q.val < n then Memory.read s.mem (dataAddr s q.val % 4096) else s.getV q := by
  induction n with
  | zero => simp
  | succ n ih =>
    rw [loadRegs_succ]
    simp only [loadReg, memRead_fst, memRead_snd, loadRegs_mem, loadRegs_dataAddr, setV_getV, reportRange_getV]
    have hv : (Fin.ofNat 16 n).val = n := Nat.mod_eq_of_lt (by omega)
    by_cases hq : q.val = n
    · have : Fin.ofNat 16 n = q := Fin.ext (by rw [hv, hq])
      subst this
      rw [if_pos rfl, if_pos (by omega), hv]
    · have : Fin.ofNat 16 n ≠ q := fun h => hq (by rw [← h, hv])
      rw [if_neg this, ih (by omega)]
      by_cases h : q.val < n
      · rw [if_pos h, if_pos (by omega)]
      · rw [if_neg h, if_neg (by omega)]

theorem loadRegs_reports (a : Word) (n : Nat) (s : State) :
    Reports s (loadRegs a n s) (rangeEvents a s.i.toNat n) := by
  induction n with
  | zero => exact Reports.refl s
  | succ n ih =>
    rw [loadRegs_succ, rangeEvents_succ]
    refine ih.trans ?_
    have h := reportRange_reports a (s.i.toNat + n) (loadRegs a n s)
    simpa [Reports, loadReg, loadRegs_dataAddr, dataAddr] using h

theorem loadRegs_frame (a : Word) (n : Nat) (hn : n ≤ 16) (s : State) :
    FrameExcept (fun p => (∃ r : Nibble, r.val < n ∧ p = .v r) ∨ p = .fault ∨ p = .faultEvents) s (loadRegs a n s) := by
  induction n with
  | zero => exact FrameExcept.refl _ _
  | succ n ih =>
    rw [loadRegs_succ, loadReg]
    refine ((ih (by omega)).mono ?_).trans (((reportRange_frame _ _ _).mono ?_).trans ((setV_frame _ _ _).mono ?_))
    · rintro p (⟨r, hr, rfl⟩ | h)
      · exact .inl ⟨r, by omega, rfl⟩
      · exact .inr h
    · exact fun p h => .inr h
    · rintro p rfl
      exact .inl ⟨_, by rw [show (Fin.ofNat 16 n).val = n from Nat.mod_eq_of_lt (by omega)]; omega, rfl⟩

/-! ## FX33 (R113) -/

/-- The three bytes hold the digits, and no other byte changes. -/
theorem storeBcd_read (a : Word) (vx : Byte) (s : State) :
    Memory.read (storeBcd a vx s).mem (dataAddr s 0 % 4096) = hundreds vx ∧
    Memory.read (storeBcd a vx s).mem (dataAddr s 1 % 4096) = tens vx ∧
    Memory.read (storeBcd a vx s).mem (dataAddr s 2 % 4096) = ones vx := by
  have hne : ∀ j k, j < 16 → k < 16 → j ≠ k → dataAddr s j % 4096 ≠ dataAddr s k % 4096 :=
    fun j k hj hk h h' => h (dataAddr_mod_inj hj hk h')
  simp only [storeBcd, memWrite_read]
  refine ⟨?_, ?_, by simp⟩
  · rw [if_neg (hne 2 0 (by omega) (by omega) (by omega)), if_neg (hne 1 0 (by omega) (by omega) (by omega)), if_pos trivial]
  · rw [if_neg (hne 2 1 (by omega) (by omega) (by omega)), if_pos trivial]

theorem storeBcd_reports (a : Word) (vx : Byte) (s : State) :
    Reports s (storeBcd a vx s) (rangeEvents a s.i.toNat 3) := by
  have h0 := memWrite_reports a (dataAddr s 0) (hundreds vx) s
  have h1 := memWrite_reports a (dataAddr s 1) (tens vx) (memWrite a (dataAddr s 0) (hundreds vx) s)
  have h2 := memWrite_reports a (dataAddr s 2) (ones vx)
    (memWrite a (dataAddr s 1) (tens vx) (memWrite a (dataAddr s 0) (hundreds vx) s))
  have h := (h0.trans h1).trans h2
  rw [rangeEvents_succ a _ 2, rangeEvents_succ a _ 1]
  exact h

theorem storeBcd_frame (a : Word) (vx : Byte) (s : State) :
    FrameExcept (fun p => (∃ c, s.IsDataByte 3 c ∧ p = .mem c) ∨ p = .fault ∨ p = .faultEvents) s
      (storeBcd a vx s) := by
  refine ((memWrite_frame a (dataAddr s 0) (hundreds vx) s).mono ?_).trans
    (((memWrite_frame a (dataAddr s 1) (tens vx) _).mono ?_).trans
      ((memWrite_frame a (dataAddr s 2) (ones vx) _).mono ?_))
  · rintro p (rfl | h)
    · exact .inl ⟨_, ⟨0, by omega, rfl⟩, rfl⟩
    · exact .inr h
  · rintro p (rfl | h)
    · exact .inl ⟨_, ⟨1, by omega, rfl⟩, rfl⟩
    · exact .inr h
  · rintro p (rfl | h)
    · exact .inl ⟨_, ⟨2, by omega, rfl⟩, rfl⟩
    · exact .inr h

end Sys2Proof.Machine
end

