-- ==== Sys2Proof/Laws/Events.lean ====
section
/-! SUPPORT. What a step is: the fetch as the update it stands for, the step by the kind of its event. -/

namespace Sys2Proof.Machine

/-- The fetch reads the word at PC and leaves the state `afterFetch` describes (40_flow.md R70). -/
theorem fetch_eq (rnd : Option Byte) (s : State) :
    fetch (s.beginCycle rnd) = (s.fetchedWord, s.afterFetch rnd) := by
  simp only [fetch, memRead_fst, memRead_snd, reportRange_mem]
  refine Prod.ext rfl ?_
  simp only [reportRange_eq, State.afterFetch, State.beginCycle, State.setPc, rangeEvents_succ s.pc s.pc.toNat 1,
    faultAfter_append, List.append_assoc]

/-- A `CpuStep` dispatches the fetched word in the state after the fetch. -/
theorem cpuStep_eq (rnd : Option Byte) (s : State) :
    cpuStep rnd s = dispatch s.fetchedWord (s.afterFetch rnd) := by
  rw [cpuStep, fetch_eq]

/-- With nothing due, a step is a `CpuStep` whose `rnd` is free. -/
theorem step_idle {s : State} (h : s.Idle) : step s = cpuStep none s := by
  simp [step, stepEvent, h.1, h.2]

/-- With an event due and no tick pending, a step is that event. -/
theorem step_event {s : State} {e : Event} {es : List Event} (h : s.NextEvent e es) :
    step s = applyEvent e (s.withSchedule es) := by
  simp [step, stepEvent, h.1, h.2]

/-- With a tick pending, a step is its delivery. -/
theorem step_tick {s : State} (h : s.tickPend = true) : step s = .next (deliverTick s) := by
  simp [step, stepEvent, h]

/-- Every step is one of these: the delivery of a tick, the free-running CPU, or the host's next event. -/
theorem step_cases (s : State) :
    (s.tickPend = true ∧ step s = .next (deliverTick s)) ∨
    (s.Idle ∧ step s = cpuStep none s) ∨
    (∃ e es, s.NextEvent e es ∧ step s = applyEvent e (s.withSchedule es)) := by
  rcases hp : s.tickPend with - | -
  · rcases hs : s.schedule with - | ⟨e, es⟩
    · exact .inr (.inl ⟨⟨hp, hs⟩, step_idle ⟨hp, hs⟩⟩)
    · exact .inr (.inr ⟨e, es, ⟨hp, hs⟩, step_event ⟨hp, hs⟩⟩)
  · exact .inl ⟨rfl, step_tick hp⟩

/-- A timer after a tick, as a number (60_exceptions.md R152). -/
theorem countDown_toNat (t : Byte) : (countDown t).toNat = t.toNat - 1 := by
  unfold countDown
  split <;> bv_omega

theorem timerTick_frame (s : State) : FrameExcept (fun p => p = .dt ∨ p = .st) s (timerTick s) :=
  ((setDt_frame s _).mono fun _ => .inl).trans ((setSt_frame _ _).mono fun _ => .inr)

end Sys2Proof.Machine
end

