-- ==== Sys2Proof/Laws/PerInstr.lean ====
section
/-! SUPPORT. A statement made for each instruction as syntax: its word is the one its row of the opcode map gives
(30_encoding.md R55: "a word op is the instruction when op & mask == match"). -/

namespace Sys2Proof.Laws

/-- Mask and match of an instruction's row, in the order of R55's table. -/
def opcodeRow : Instr → Word × Word
  | .cls => (0xFFFF, 0x00E0)
  | .ret => (0xFFFF, 0x00EE)
  | .sysNnn _ => (0xF000, 0x0000)
  | .jpNnn _ => (0xF000, 0x1000)
  | .callNnn _ => (0xF000, 0x2000)
  | .seVxNn _ _ => (0xF000, 0x3000)
  | .sneVxNn _ _ => (0xF000, 0x4000)
  | .seVxVy _ _ => (0xF00F, 0x5000)
  | .ldVxNn _ _ => (0xF000, 0x6000)
  | .addVxNn _ _ => (0xF000, 0x7000)
  | .ldVxVy _ _ => (0xF00F, 0x8000)
  | .orVxVy _ _ => (0xF00F, 0x8001)
  | .andVxVy _ _ => (0xF00F, 0x8002)
  | .xorVxVy _ _ => (0xF00F, 0x8003)
  | .addVxVy _ _ => (0xF00F, 0x8004)
  | .subVxVy _ _ => (0xF00F, 0x8005)
  | .shrVx _ _ => (0xF00F, 0x8006)
  | .subnVxVy _ _ => (0xF00F, 0x8007)
  | .shlVx _ _ => (0xF00F, 0x800E)
  | .sneVxVy _ _ => (0xF00F, 0x9000)
  | .ldINnn _ => (0xF000, 0xA000)
  | .jpV0Nnn _ => (0xF000, 0xB000)
  | .rndVxNn _ _ => (0xF000, 0xC000)
  | .drwVxVyN _ _ _ => (0xF000, 0xD000)
  | .skpVx _ => (0xF0FF, 0xE09E)
  | .sknpVx _ => (0xF0FF, 0xE0A1)
  | .ldVxDt _ => (0xF0FF, 0xF007)
  | .ldVxK _ => (0xF0FF, 0xF00A)
  | .ldDtVx _ => (0xF0FF, 0xF015)
  | .ldStVx _ => (0xF0FF, 0xF018)
  | .addIVx _ => (0xF0FF, 0xF01E)
  | .ldFVx _ => (0xF0FF, 0xF029)
  | .ldBVx _ => (0xF0FF, 0xF033)
  | .ldMemVx _ => (0xF0FF, 0xF055)
  | .ldVxMem _ => (0xF0FF, 0xF065)

/-- The mask of the formats whose only fixed field is T. -/
theorem and_maskT (op : Word) : op &&& 0xF000#16 = wordNNN (fieldT op) 0 := by
  apply BitVec.eq_of_getLsbD_eq; intro k hk
  have : k ∈ List.range 16 := List.mem_range.2 hk
  simp only [wordNNN, fieldT, BitVec.getLsbD_append, BitVec.getLsbD_extractLsb', BitVec.getLsbD_and]
  fin_cases this <;> simp

/-- The mask of the formats whose fixed fields are T and N. -/
theorem and_maskTN (op : Word) : op &&& 0xF00F#16 = wordXYN (fieldT op) 0 0 (BitVec.ofFin (fieldN op)) := by
  apply BitVec.eq_of_getLsbD_eq; intro k hk
  have : k ∈ List.range 16 := List.mem_range.2 hk
  simp only [wordXYN, fieldT, fieldN, ofFin_toFin, BitVec.getLsbD_append, BitVec.getLsbD_extractLsb', BitVec.getLsbD_and]
  fin_cases this <;> simp

/-- The mask of the formats whose fixed fields are T and NN. -/
theorem and_maskTNN (op : Word) : op &&& 0xF0FF#16 = wordXNN (fieldT op) 0 (fieldNN op) := by
  apply BitVec.eq_of_getLsbD_eq; intro k hk
  have : k ∈ List.range 16 := List.mem_range.2 hk
  simp only [wordXNN, fieldT, fieldNN, BitVec.getLsbD_append, BitVec.getLsbD_extractLsb', BitVec.getLsbD_and]
  fin_cases this <;> simp

/-- The fixed bits of a word of format ADDR or FIXED. -/
theorem wordNNN_row (t : BitVec 4) (nnn : Addr12) : wordNNN t nnn &&& 0xF000#16 = wordNNN t 0 := by
  rw [and_maskT, fieldT_wordNNN]

/-- The fixed bits of a word of format REG_IMM. -/
theorem wordXNN_row (t : BitVec 4) (x : Nibble) (nn : Byte) : wordXNN t x nn &&& 0xF000#16 = wordNNN t 0 := by
  rw [and_maskT, fieldT_wordXNN]

/-- The fixed bits of a word of format REG_SUB. -/
theorem wordXNN_subRow (t : BitVec 4) (x : Nibble) (nn : Byte) : wordXNN t x nn &&& 0xF0FF#16 = wordXNN t 0 nn := by
  rw [and_maskTNN, fieldT_wordXNN, fieldNN_wordXNN]

/-- The fixed bits of a word of format REG_REG. -/
theorem wordXYN_row (t : BitVec 4) (x y : Nibble) (n : BitVec 4) :
    wordXYN t x y n &&& 0xF00F#16 = wordXYN t 0 0 n := by
  rw [and_maskTN, fieldT_wordXYN, fieldN_wordXYN, ofFin_toFin]

/-- The fixed bits of a word of format REG_REG_N. -/
theorem wordXYN_drawRow (t : BitVec 4) (x y : Nibble) (n : BitVec 4) :
    wordXYN t x y n &&& 0xF000#16 = wordNNN t 0 := by
  rw [and_maskT, fieldT_wordXYN]

namespace OpcodeRow

/-- The instruction's word has its row's fixed bits. -/
def Statement (i : Instr) : Prop := encode i &&& (opcodeRow i).1 = (opcodeRow i).2

theorem cls : Statement .cls := by unfold Statement; decide
theorem ret : Statement .ret := by unfold Statement; decide
theorem sysNnn (nnn : Addr12) : Statement (.sysNnn nnn) :=
  wordNNN_row _ nnn
theorem jpNnn (nnn : Addr12) : Statement (.jpNnn nnn) :=
  wordNNN_row _ nnn
theorem callNnn (nnn : Addr12) : Statement (.callNnn nnn) :=
  wordNNN_row _ nnn
theorem seVxNn (x : Nibble) (nn : Byte) : Statement (.seVxNn x nn) :=
  wordXNN_row _ x nn
theorem sneVxNn (x : Nibble) (nn : Byte) : Statement (.sneVxNn x nn) :=
  wordXNN_row _ x nn
theorem seVxVy (x y : Nibble) : Statement (.seVxVy x y) :=
  wordXYN_row _ x y _
theorem ldVxNn (x : Nibble) (nn : Byte) : Statement (.ldVxNn x nn) :=
  wordXNN_row _ x nn
theorem addVxNn (x : Nibble) (nn : Byte) : Statement (.addVxNn x nn) :=
  wordXNN_row _ x nn
theorem ldVxVy (x y : Nibble) : Statement (.ldVxVy x y) :=
  wordXYN_row _ x y _
theorem orVxVy (x y : Nibble) : Statement (.orVxVy x y) :=
  wordXYN_row _ x y _
theorem andVxVy (x y : Nibble) : Statement (.andVxVy x y) :=
  wordXYN_row _ x y _
theorem xorVxVy (x y : Nibble) : Statement (.xorVxVy x y) :=
  wordXYN_row _ x y _
theorem addVxVy (x y : Nibble) : Statement (.addVxVy x y) :=
  wordXYN_row _ x y _
theorem subVxVy (x y : Nibble) : Statement (.subVxVy x y) :=
  wordXYN_row _ x y _
theorem shrVx (x y : Nibble) : Statement (.shrVx x y) :=
  wordXYN_row _ x y _
theorem subnVxVy (x y : Nibble) : Statement (.subnVxVy x y) :=
  wordXYN_row _ x y _
theorem shlVx (x y : Nibble) : Statement (.shlVx x y) :=
  wordXYN_row _ x y _
theorem sneVxVy (x y : Nibble) : Statement (.sneVxVy x y) :=
  wordXYN_row _ x y _
theorem ldINnn (nnn : Addr12) : Statement (.ldINnn nnn) :=
  wordNNN_row _ nnn
theorem jpV0Nnn (nnn : Addr12) : Statement (.jpV0Nnn nnn) :=
  wordNNN_row _ nnn
theorem rndVxNn (x : Nibble) (nn : Byte) : Statement (.rndVxNn x nn) :=
  wordXNN_row _ x nn
theorem drwVxVyN (x y n : Nibble) : Statement (.drwVxVyN x y n) :=
  wordXYN_drawRow _ x y _
theorem skpVx (x : Nibble) : Statement (.skpVx x) :=
  wordXNN_subRow _ x _
theorem sknpVx (x : Nibble) : Statement (.sknpVx x) :=
  wordXNN_subRow _ x _
theorem ldVxDt (x : Nibble) : Statement (.ldVxDt x) :=
  wordXNN_subRow _ x _
theorem ldVxK (x : Nibble) : Statement (.ldVxK x) :=
  wordXNN_subRow _ x _
theorem ldDtVx (x : Nibble) : Statement (.ldDtVx x) :=
  wordXNN_subRow _ x _
theorem ldStVx (x : Nibble) : Statement (.ldStVx x) :=
  wordXNN_subRow _ x _
theorem addIVx (x : Nibble) : Statement (.addIVx x) :=
  wordXNN_subRow _ x _
theorem ldFVx (x : Nibble) : Statement (.ldFVx x) :=
  wordXNN_subRow _ x _
theorem ldBVx (x : Nibble) : Statement (.ldBVx x) :=
  wordXNN_subRow _ x _
theorem ldMemVx (x : Nibble) : Statement (.ldMemVx x) :=
  wordXNN_subRow _ x _
theorem ldVxMem (x : Nibble) : Statement (.ldVxMem x) :=
  wordXNN_subRow _ x _

end OpcodeRow

end Sys2Proof.Laws
end

