-- ==== Sys2Proof/Tests/Slice0.lean ====
section
/-! SUPPORT. The model's own tests: the decoding of words written out from the patterns of 30_encoding.md R55, one step
on small states with the results of spec/95_test_vectors.md (the vector's id is in each name), and a witness for
every statement that has hypotheses, one for each clause. -/

namespace Sys2Proof.Tests

open Sys2Proof.Machine

/-! ## Helpers -/

/-- Reset with the instruction word at PC. -/
def at0 (op : Nat) : State := State.reset.withFetchWord 16 op

/-- Bytes at an address. -/
def withBytes (a : Nat) (bs : List Byte) (s : State) : State :=
  { s with mem := (bs.mapIdx (fun k b => (a + k, b))).foldl (fun m c => Memory.write m c.1 c.2) s.mem }

/-- What `f` reads in the next state of an outcome. -/
def look {α : Type} (o : Host.Outcome State Fault Refusal) (f : State → α) : Option α :=
  match o with
  | .next t => some (f t)
  | .fault _ => none
  | .refused _ => none

/-- The fault events as numbers: code, pc, info. -/
def faults (s : State) : List (List Nat) := s.faultEvents.map (fun e => [e.code.bit.val, e.pc.toNat, e.info.toNat])

/-- Pixels, given as (x, y). -/
def pixels (s : State) (l : List (Fin 64 × Fin 32)) : List Bool := l.map (fun c => s.pixel c.2 c.1)

/-! ## Well-formedness refuses what no word encodes (30_encoding.md R56) -/

theorem smoke_sys_0E0_is_cls : (Instr.sysNnn 0x0E0).wf = false := by decide
theorem smoke_sys_0EE_is_ret : (Instr.sysNnn 0x0EE).wf = false := by decide
theorem smoke_sys_neighbours : (Instr.sysNnn 0x0E1).wf = true ∧ (Instr.sysNnn 0x0EF).wf = true ∧
    (Instr.sysNnn 0x1E0).wf = true := by decide

/-! ## Decoding: each constructor from a word written out bit by bit (30_encoding.md R51, R55) -/

theorem decode_cls : decode 0b0000000011100000#16 = some .cls := by decide
theorem decode_ret : decode 0b0000000011101110#16 = some .ret := by decide
theorem decode_sysNnn : decode 0b0000000011101111#16 = some (.sysNnn 0x0EF) := by decide
theorem decode_jpNnn : decode 0b0001101010111100#16 = some (.jpNnn 0xABC) := by decide
theorem decode_callNnn : decode 0b0010001101000101#16 = some (.callNnn 0x345) := by decide
theorem decode_seVxNn : decode 0b0011111100000001#16 = some (.seVxNn 15 0x01) := by decide
theorem decode_sneVxNn : decode 0b0100101000000001#16 = some (.sneVxNn 10 0x01) := by decide
theorem decode_seVxVy : decode 0b0101101010110000#16 = some (.seVxVy 10 11) := by decide
theorem decode_ldVxNn : decode 0b0110000000000101#16 = some (.ldVxNn 0 0x05) := by decide
theorem decode_addVxNn : decode 0b0111001010000001#16 = some (.addVxNn 2 0x81) := by decide
theorem decode_ldVxVy : decode 0b1000000100100000#16 = some (.ldVxVy 1 2) := by decide
theorem decode_orVxVy : decode 0b1000000100100001#16 = some (.orVxVy 1 2) := by decide
theorem decode_andVxVy : decode 0b1000000100100010#16 = some (.andVxVy 1 2) := by decide
theorem decode_xorVxVy : decode 0b1000000100100011#16 = some (.xorVxVy 1 2) := by decide
theorem decode_addVxVy : decode 0b1000000100100100#16 = some (.addVxVy 1 2) := by decide
theorem decode_subVxVy : decode 0b1000000100100101#16 = some (.subVxVy 1 2) := by decide
theorem decode_shrVx : decode 0b1000000100100110#16 = some (.shrVx 1 2) := by decide
theorem decode_subnVxVy : decode 0b1000000100100111#16 = some (.subnVxVy 1 2) := by decide
theorem decode_shlVx : decode 0b1000111111111110#16 = some (.shlVx 15 15) := by decide
theorem decode_sneVxVy : decode 0b1001101010110000#16 = some (.sneVxVy 10 11) := by decide
theorem decode_ldINnn : decode 0b1010111111111111#16 = some (.ldINnn 0xFFF) := by decide
theorem decode_jpV0Nnn : decode 0b1011001100000000#16 = some (.jpV0Nnn 0x300) := by decide
theorem decode_rndVxNn : decode 0b1100000111110000#16 = some (.rndVxNn 1 0xF0) := by decide
theorem decode_drwVxVyN : decode 0b1101000100101111#16 = some (.drwVxVyN 1 2 15) := by decide
theorem decode_skpVx : decode 0b1110000010011110#16 = some (.skpVx 0) := by decide
theorem decode_sknpVx : decode 0b1110111110100001#16 = some (.sknpVx 15) := by decide
theorem decode_ldVxDt : decode 0b1111000100000111#16 = some (.ldVxDt 1) := by decide
theorem decode_ldVxK : decode 0b1111000100001010#16 = some (.ldVxK 1) := by decide
theorem decode_ldDtVx : decode 0b1111000100010101#16 = some (.ldDtVx 1) := by decide
theorem decode_ldStVx : decode 0b1111000100011000#16 = some (.ldStVx 1) := by decide
theorem decode_addIVx : decode 0b1111000100011110#16 = some (.addIVx 1) := by decide
theorem decode_ldFVx : decode 0b1111000100101001#16 = some (.ldFVx 1) := by decide
theorem decode_ldBVx : decode 0b1111000100110011#16 = some (.ldBVx 1) := by decide
theorem decode_ldMemVx : decode 0b1111001101010101#16 = some (.ldMemVx 3) := by decide
theorem decode_ldVxMem : decode 0b1111001101100101#16 = some (.ldVxMem 3) := by decide

/-- Vectors E5, E6, E9, E11: unknown words. -/
theorem decode_unknown_E5_E6_E9_E11 : ([0x5001#16, 0x500F#16, 0x9001#16, 0x8008#16, 0x800D#16, 0x800F#16,
    0xE000#16, 0xE09F#16, 0xE0A0#16, 0xEFFF#16, 0xF000#16, 0xF01F#16, 0xF030#16, 0xF056#16, 0xF075#16, 0xF085#16,
    0xFFFF#16].all fun op => (decode op).isNone) = true := by decide

/-- The same encodings the other way: the words of F3, F8, X12 and A23. -/
theorem encode_words : encode (.sysNnn 0) = 0x0000#16 ∧ encode (.callNnn 0xABC) = 0x2ABC#16 ∧
    encode (.drwVxVyN 0 1 3) = 0xD013#16 ∧ encode (.shrVx 1 2) = 0x8126#16 := by decide

/-- The high byte stands first (20_memory.md R32); a lone byte is no instruction (30_encoding.md R50). -/
theorem decode_bytes_S6 : (decodeBytes [0x60, 0x05, 0x00]).toOption = some (.ldVxNn 0 5, [0x00]) ∧
    (decodeBytes [0x60]).toOption = none ∧ decodeTableWord 16 0x6005 = some (.ldVxNn 0 5) := by decide

/-! ## One step of each instruction (spec/95_test_vectors.md) -/

theorem step_cls_X1 :
    look (step ((((at0 0x00E0).setPixel 0 0 true).setPixel 31 63 true).setV 15 1))
      (fun t => (t.pixel 0 0, t.pixel 31 63, t.getV 15, t.pc)) = some (false, false, 1, 0x202) := by decide

theorem step_ret_F1 :
    look (step (({ State.reset with pc := 0x400, sp := 2, stack := (State.reset.stack.set 0 0x300).set 1 0x456 }).withFetchWord
      16 0x00EE)) (fun t => (t.pc, t.sp)) = some (0x456, 1) := by decide
theorem step_ret_F2 : look (step (at0 0x00EE)) (fun t => (t.pc, t.sp, t.fault, faults t))
    = some (0x202, 0, 0b0100, [[2, 0x200, 0x00EE]]) := by decide

theorem step_sys_F3 : look (step (at0 0x0000)) (fun t => (t.pc, t.fault)) = some (0x202, 0) := by decide
theorem step_sys_F4 : look (step ((at0 0x00E1).setPixel 0 0 true)) (fun t => (t.pixel 0 0, t.pc, t.fault))
    = some (true, 0x202, 0) := by decide

theorem step_jp_F6 : look (step (at0 0x1FFF)) (fun t => t.pc) = some 0xFFF := by decide
theorem step_jp_F7 : look (step (at0 0x1200)) (fun t => t.pc) = some 0x200 := by decide

theorem step_call_F8 :
    look (step (({ State.reset with pc := 0xFFE, sp := 15 }).withFetchWord 16 0x2ABC))
      (fun t => (t.pc, t.sp, t.stack[15], t.fault)) = some (0xABC, 16, 0x1000, 0) := by decide
theorem step_call_F9 :
    look (step { at0 0x2ABC with sp := 16 }) (fun t => (t.pc, t.sp, t.fault, faults t))
      = some (0x202, 16, 0b0010, [[1, 0x200, 0x2ABC]]) := by decide

theorem step_seVxNn_F12 : look (step ((at0 0x3F01).setV 15 1)) (fun t => t.pc) = some 0x204 := by decide
theorem step_seVxNn_F14 : look (step (at0 0x3A01)) (fun t => t.pc) = some 0x202 := by decide
theorem step_sneVxNn_F15 : look (step (at0 0x4A00)) (fun t => t.pc) = some 0x202 := by decide
theorem step_sneVxNn_F16 : look (step (at0 0x4A01)) (fun t => t.pc) = some 0x204 := by decide
theorem step_seVxVy_F17 : look (step (((at0 0x5AB0).setV 10 5).setV 11 5)) (fun t => t.pc) = some 0x204 := by decide
theorem step_seVxVy_F18 : look (step (((at0 0x5AB0).setV 10 5).setV 11 6)) (fun t => t.pc) = some 0x202 := by decide
theorem step_sneVxVy_F21 : look (step (((at0 0x9AB0).setV 10 5).setV 11 6)) (fun t => t.pc) = some 0x204 := by decide
theorem step_sneVxVy_F22 : look (step ((at0 0x9AA0).setV 10 5)) (fun t => t.pc) = some 0x202 := by decide

theorem step_ldVxNn_S6 : look (step (at0 0x6005)) (fun t => (t.getV 0, t.pc)) = some (5, 0x202) := by decide
theorem step_ldVxNn_A1 : look (step (at0 0x6F7B)) (fun t => t.getV 15) = some 0x7B := by decide
theorem step_addVxNn_A2 : look (step ((at0 0x7FFF).setV 15 1)) (fun t => t.getV 15) = some 0 := by decide
theorem step_addVxNn_A3 : look (step ((at0 0x7201).setV 2 0xFF)) (fun t => (t.getV 2, t.getV 15)) = some (0, 0) := by decide
theorem step_ldVxVy_A4 : look (step (((at0 0x8120).setV 1 0x12).setV 2 0x34)) (fun t => (t.getV 1, t.getV 2))
    = some (0x34, 0x34) := by decide
theorem step_orVxVy_A5 : look (step ((((at0 0x8121).setV 1 0x55).setV 2 0xAA).setV 15 1)) (fun t => (t.getV 1, t.getV 15))
    = some (0xFF, 1) := by decide
theorem step_andVxVy_A6 : look (step (((at0 0x8122).setV 1 0x5F).setV 2 0xAA)) (fun t => t.getV 1) = some 0x0A := by decide
theorem step_xorVxVy_A7 : look (step (((at0 0x8123).setV 1 0x5F).setV 2 0xAA)) (fun t => t.getV 1) = some 0xF5 := by decide
theorem step_xorVxVy_A8 : look (step ((at0 0x8113).setV 1 0x5F)) (fun t => t.getV 1) = some 0 := by decide
theorem step_addVxVy_S1 : look (step (((at0 0x8014).setV 0 0xFF).setV 1 1)) (fun t => (t.getV 0, t.getV 15))
    = some (0, 1) := by decide
theorem step_addVxVy_A13 : look (step (((at0 0x8F14).setV 15 0x10).setV 1 0x20)) (fun t => t.getV 15) = some 0 := by decide
theorem step_subVxVy_S2 : look (step (((at0 0x8015).setV 0 1).setV 1 2)) (fun t => (t.getV 0, t.getV 15))
    = some (0xFF, 0) := by decide
theorem step_subVxVy_A16 : look (step (((at0 0x8125).setV 1 0x10).setV 2 0x10)) (fun t => (t.getV 1, t.getV 15))
    = some (0, 1) := by decide
theorem step_shrVx_A23 : look (step ((((at0 0x8126).setV 1 0xFE).setV 2 0xFF).setV 15 1)) (fun t => (t.getV 1, t.getV 15))
    = some (0x7F, 0) := by decide
theorem step_shrVx_A25 : look (step ((at0 0x8F06).setV 15 2)) (fun t => t.getV 15) = some 0 := by decide
theorem step_subnVxVy_A27 : look (step (((at0 0x8127).setV 1 0x30).setV 2 0x10)) (fun t => (t.getV 1, t.getV 15))
    = some (0xE0, 0) := by decide
theorem step_subnVxVy_A28 : look (step (((at0 0x8127).setV 1 0x30).setV 2 0x30)) (fun t => (t.getV 1, t.getV 15))
    = some (0, 1) := by decide
theorem step_shlVx_A30 : look (step ((at0 0x812E).setV 1 0xFF)) (fun t => (t.getV 1, t.getV 15)) = some (0xFE, 1) := by decide
theorem step_shlVx_A33 : look (step ((at0 0x8F0E).setV 15 0x41)) (fun t => t.getV 15) = some 0 := by decide

theorem step_ldINnn_M1 : look (step ((at0 0xAFFF).setI 0x1234)) (fun t => t.i) = some 0xFFF := by decide
theorem step_jpV0_F10 : look (step ((at0 0xBFFF).setV 0 0xFF)) (fun t => t.pc) = some 0x10FE := by decide
theorem step_jpV0_F11 : look (step ((at0 0xB300).setV 0 0x10)) (fun t => t.pc) = some 0x310 := by decide
theorem step_rnd_A36 : look (step { at0 0xC1F0 with schedule := [.cpuStep 0xAB] }) (fun t => (t.getV 1, t.rndDraws))
    = some (0xA0, 1) := by decide
theorem step_rnd_A38 : look (step { at0 0xCFFF with schedule := [.cpuStep 0x5A] }) (fun t => t.getV 15) = some 0x5A := by decide

theorem step_drw_X7_X10 :
    look (step (((withBytes 0x300 [0xC0] (at0 0xD011)).setI 0x300).setPixel 0 0 true))
      (fun t => (pixels t [(0, 0), (1, 0), (2, 0)], t.getV 15)) = some ([false, true, false], 1) ∧
    look (step ((((withBytes 0x300 [0x80] (at0 0xDF11)).setI 0x300).setV 15 5).setV 1 3))
      (fun t => (pixels t [(5, 3), (0, 3), (3, 5)], t.getV 15)) = some ([true, false, false], 0) := by decide
theorem step_drw_X5_X13 :
    look (step ((((withBytes 0x300 [0x81] (at0 0xD011)).setI 0x300).setV 0 0xFF).setV 1 0xFF))
      (fun t => pixels t [(63, 31), (0, 31), (6, 31), (62, 31)]) = some [true, false, true, false] ∧
    look (step ((withBytes 0xFFF [0x80] (withBytes 0 [0xF0] (at0 0xD012))).setI 0xFFF))
      (fun t => (pixels t [(0, 0), (1, 0), (0, 1), (3, 1), (4, 1)], faults t, t.fault, t.i))
      = some ([true, false, true, true, false], [[3, 0x200, 0x1000]], 0b1000, 0xFFF) := by decide

theorem step_skp_K2_K3 : look (step ((at0 0xE19E).setV 1 0x0A)) (fun t => t.pc) = some 0x202 ∧
    look (step (((at0 0xE19E).setV 1 0x1A).setKey 10 true)) (fun t => t.pc) = some 0x204 := by decide
theorem step_sknp_K4_K5 : look (step (((at0 0xE1A1).setV 1 0x0A).setKey 10 true)) (fun t => t.pc) = some 0x202 ∧
    look (step ((at0 0xE1A1).setV 1 0x0A)) (fun t => t.pc) = some 0x204 := by decide
theorem step_ldVxDt_T1 : look (step ((at0 0xF107).setDt 0x2A)) (fun t => (t.getV 1, t.dt)) = some (0x2A, 0x2A) := by decide
theorem step_ldVxK_K7 : look (step ((at0 0xF10A).setV 1 0x33)) (fun t => (t.getV 1, t.pc)) = some (0x33, 0x200) := by decide
theorem step_ldVxK_K8 : look (step ((at0 0xF10A).setKey 15 true)) (fun t => (t.getV 1, t.pc, t.key 15))
    = some (0x0F, 0x202, true) := by decide
theorem step_ldDtVx_T4 : look (step ((at0 0xFF15).setV 15 7)) (fun t => (t.dt, t.st)) = some (7, 0) := by decide
theorem step_ldStVx_T3 : look (step ((at0 0xF118).setSt 9)) (fun t => (t.st, toneOn t)) = some (0, false) := by decide
theorem step_ldStVx_T5 : look (step ((at0 0xF118).setV 1 1)) (fun t => (t.st, toneOn t)) = some (1, true) := by decide

theorem step_addIVx_M2 : look (step (((at0 0xF11E).setI 0xFFF).setV 1 1)) (fun t => t.i) = some 0x1000 := by decide
theorem step_addIVx_M3 : look (step (((at0 0xF11E).setI 0xFFFF).setV 1 2)) (fun t => (t.i, t.getV 15)) = some (1, 0) := by decide
theorem step_ldFVx_M5 : look (step ((at0 0xF129).setV 1 0x10)) (fun t => t.i) = some 0x50 := by decide
theorem step_ldFVx_M6 : look (step ((at0 0xF129).setV 1 0xFF)) (fun t => (t.i, t.fault)) = some (0x4FB, 0) := by decide
theorem step_ldBVx_M9 : look (step (((at0 0xF133).setI 0x300).setV 1 0x6D)) (fun t => (List.range 3).map (fun k =>
    Memory.cellAt t.mem (0x300 + k))) = some [some 1, some 0, some 9] := by decide
theorem step_ldBVx_M10 : look (step (((at0 0xF133).setI 0xFFE).setV 1 0x7B))
    (fun t => ([Memory.cellAt t.mem 0xFFE, Memory.cellAt t.mem 0xFFF, Memory.cellAt t.mem 0], faults t, t.i))
    = some ([some 1, some 2, some 3], [[3, 0x200, 0x1000]], 0xFFE) := by decide
theorem step_ldMemVx_M11 : look (step ((((withBytes 0x301 [0x77] (at0 0xF055)).setI 0x300).setV 0 0xAB).setV 1 0xCD))
    (fun t => (Memory.cellAt t.mem 0x300, Memory.cellAt t.mem 0x301, t.i)) = some (some 0xAB, some 0x77, 0x300) := by decide
theorem step_ldMemVx_M12 :
    look (step { at0 0xFF55 with v := Vector.ofFn (fun k => 0x10 + BitVec.ofNat 8 k.val), i := 0xFF8 })
      (fun t => ([Memory.cellAt t.mem 0xFFF, Memory.cellAt t.mem 0, Memory.cellAt t.mem 7], faults t, t.i))
      = some ([some 0x17, some 0x18, some 0x1F],
          [[3, 0x200, 0x1000], [3, 0x200, 0x1001], [3, 0x200, 0x1002], [3, 0x200, 0x1003], [3, 0x200, 0x1004],
           [3, 0x200, 0x1005], [3, 0x200, 0x1006], [3, 0x200, 0x1007]], 0xFF8) := by decide
/-- M13 with the bytes of the font region that it reads listed, as the default FONT gives them. -/
theorem step_ldVxMem_M13 :
    look (step (((withBytes 0 [0xF0, 0x90, 0x90, 0x90] (at0 0xF365)).setI 0x1000).setV 4 0xEE))
      (fun t => ([t.getV 0, t.getV 1, t.getV 2, t.getV 3, t.getV 4], faults t, t.i))
      = some ([0xF0, 0x90, 0x90, 0x90, 0xEE],
          [[3, 0x200, 0x1000], [3, 0x200, 0x1001], [3, 0x200, 0x1002], [3, 0x200, 0x1003]], 0x1000) := by decide
theorem step_ldVxMem_M15 : look (step ((at0 0xF065).setI 0x201)) (fun t => t.getV 0) = some 0x65 := by decide

/-! ## Unknown words, the fetch at the top of memory, the other events -/

theorem step_unknown_A34 : look (step (((at0 0x8128).setV 1 0x11).setV 2 0x22))
    (fun t => (t.getV 1, t.fault, faults t, t.pc)) = some (0x11, 0b0001, [[0, 0x200, 0x8128]], 0x202) := by decide
theorem step_fetch_F24 : look (step ({ State.reset with pc := 0xFFFE }.withFetchWord 16 0x3000))
    (fun t => (t.pc, t.fault, faults t)) = some (2, 0b1000, [[3, 0xFFFE, 0xFFFE], [3, 0xFFFE, 0xFFFF]]) := by decide
theorem step_fetch_F25 : look (step ({ State.reset with pc := 0xFFFF }.withFetchWord 16 0x6000))
    (fun t => (t.pc, t.getV 0, faults t)) = some (1, 0, [[3, 0xFFFF, 0xFFFF], [3, 0xFFFF, 0]]) := by decide
theorem step_tick_T6_T7 : look (step { State.reset with dt := 0x0A, st := 1, schedule := [.timerTick] })
    (fun t => (t.dt, t.st)) = some (9, 0) ∧
    look (step { State.reset with schedule := [.timerTick] }) (fun t => (t.dt, t.st)) = some (0, 0) := by decide
theorem step_keys_K12 : look (step { State.reset.setKey 5 true with schedule := [.keyDown 5] }) (fun t => t.key 5) = some true ∧
    look (step { State.reset.setKey 5 true with schedule := [.keyUp 5] }) (fun t => t.key 5) = some false := by decide
theorem step_load_S6 : look (step { State.reset with schedule := loadEvents [0x60, 0x05] })
    (fun t => (Memory.cellAt t.mem 0x200, t.schedule)) = some (some 0x60, [.load 0x201 0x05]) := by decide
theorem step_displayRead_R48 : look (step { (at0 0x00E0).setPixel 0 0 true with schedule := [.displayRead] })
    (fun t => (fbQ t 0 0, t.pc)) = some (true, 0x200) := by decide
/-- The default sprite of digit 7, drawn in program P4 of the vectors. -/
theorem defaultFont_digit_7 : (List.range 5).map (fun k => defaultFont (Fin.ofNat 80 (0x23 + k)))
    = [0xF0, 0x10, 0x20, 0x40, 0x40] := by decide

/-! ## Witnesses: each statement's hypotheses are met, clause by clause -/

theorem witness_DecodeOfEncodeIsIdentity : (Instr.sysNnn 0x0EF).wf = true := by decide
theorem witness_EncodeOfDecodeIsIdentity : decode 0x0FFF = some (.sysNnn 0xFFF) := by decide
theorem witness_BytesDecodeBigEndian : (Instr.ldVxMem 15).wf = true := by decide
/-- Each line of the table of unknown words, at its lowest and highest word. -/
theorem witness_UnknownWordsAreThoseListed :
    (fieldT 0x5001 = 0x5#4 ∧ fieldN 0x5001 ≠ 0) ∧ (fieldT 0x8FFF = 0x8#4 ∧ (fieldN 0x8FFF).val = 0xF) ∧
    (fieldT 0x9001 = 0x9#4 ∧ fieldN 0x9001 ≠ 0) ∧ (fieldT 0xE000 = 0xE#4 ∧ (fieldNN 0xE000).toNat ∉ [0x9E, 0xA1]) ∧
    (fieldT 0xFF66 = 0xF#4 ∧ (fieldNN 0xFF66).toNat = 0x66) := by decide

/-- A state in which the host's next event is `e`. -/
def withEvent (e : Event) : State := { State.reset with dt := 5, st := 1, schedule := [e] }

theorem witness_ResetEventRestoresResetValues : (withEvent .reset).NextEvent .reset [] := ⟨rfl, rfl⟩
theorem witness_LoadWritesOneByte_before_run :
    (withEvent (.load 0xFFF 7)).NextEvent (.load 0xFFF 7) [] ∧ (withEvent (.load 0xFFF 7)).started = false :=
  ⟨⟨rfl, rfl⟩, rfl⟩
theorem witness_LoadWritesOneByte_during_run :
    ({ withEvent (.load 0 7) with started := true }).NextEvent (.load 0 7) [] ∧
    ({ withEvent (.load 0 7) with started := true }).started = true := ⟨⟨rfl, rfl⟩, rfl⟩
theorem witness_RomIsLoadedVerbatim (rom : List Byte) (h : rom.length = 3584) :
    rom.length ≤ 3584 ∧ State.reset.started = false ∧ State.reset.tickPend = false ∧
    ({ State.reset with schedule := loadEvents rom ++ [Event.cpuStep 0] }).schedule = loadEvents rom ++ [Event.cpuStep 0] :=
  ⟨by omega, rfl, rfl, rfl⟩
theorem witness_RomIsLoadedVerbatim_S6 : ([0x60, 0x05] : List Byte).length ≤ 3584 ∧
    ({ State.reset with schedule := loadEvents [0x60, 0x05] ++ [] }).started = false ∧
    ({ State.reset with schedule := loadEvents [0x60, 0x05] ++ [] }).tickPend = false := by decide

theorem witness_StepRunsDecodedInstruction_idle : (at0 0x6005).Idle ∧ decode (at0 0x6005).fetchedWord = some (.ldVxNn 0 5) :=
  ⟨⟨rfl, rfl⟩, by decide⟩
/-- At the top of the 16-bit PC, where both bytes are out of range. -/
theorem witness_StepRunsDecodedInstruction_wraps :
    ({ State.reset with pc := 0xFFFF }.withFetchWord 16 0x6000).Idle ∧
    decode ({ State.reset with pc := 0xFFFF }.withFetchWord 16 0x6000).fetchedWord = some (.ldVxNn 0 0) :=
  ⟨⟨rfl, rfl⟩, by decide⟩
theorem witness_StepRunsDecodedInstruction_scheduled :
    ({ at0 0xC1F0 with schedule := [.cpuStep 0xAB] }).NextEvent (.cpuStep 0xAB) [] ∧
    decode ({ at0 0xC1F0 with schedule := [.cpuStep 0xAB] }).fetchedWord = some (.rndVxNn 1 0xF0) :=
  ⟨⟨rfl, rfl⟩, by decide⟩
theorem witness_UnknownWordReportsAndContinues : (at0 0xF10B).Idle ∧ decode (at0 0xF10B).fetchedWord = none :=
  ⟨⟨rfl, rfl⟩, by decide⟩
theorem witness_UnknownWordReportsAndContinues_scheduled :
    ({ at0 0xF10B with schedule := [.cpuStep 0xAB] }).NextEvent (.cpuStep 0xAB) [] ∧
    decode ({ at0 0xF10B with schedule := [.cpuStep 0xAB] }).fetchedWord = none := ⟨⟨rfl, rfl⟩, by decide⟩
/-- Timers above zero, and timers at zero. -/
theorem witness_TimerTickCountsBothTimersDown : (withEvent .timerTick).NextEvent .timerTick [] ∧
    0 < (withEvent .timerTick).dt.toNat ∧
    ({ withEvent .timerTick with dt := 0, st := 0 }).NextEvent .timerTick [] := ⟨⟨rfl, rfl⟩, by decide, rfl, rfl⟩
theorem witness_TicksCountTimersToZero : ({ State.reset with dt := 10, schedule := List.replicate 11 .timerTick }).tickPend = false ∧
    ({ State.reset with dt := 10, schedule := List.replicate 11 .timerTick }).schedule = List.replicate 11 .timerTick ++ [] := by
  decide
theorem witness_TickEdgeIsDeliveredAsOneTick : (withEvent .tickEdge).NextEvent .tickEdge [] := ⟨rfl, rfl⟩
theorem witness_KeyEvents_down : (withEvent (.keyDown 15)).NextEvent (.keyDown 15) [] := ⟨rfl, rfl⟩
theorem witness_KeyEvents_up : ((withEvent (.keyUp 0)).setKey 0 true).NextEvent (.keyUp 0) [] := ⟨rfl, rfl⟩
theorem witness_DisplayReadOnlyReads : (withEvent .displayRead).NextEvent .displayRead [] := ⟨rfl, rfl⟩
/-- Both sides of the statement occur: a state with a next state, and the one that stops. -/
theorem witness_OnlyLoadDuringRunStops : look (step (at0 0x6005)) (fun t => t.pc) = some 0x202 ∧
    look (step { withEvent (.load 0 7) with started := true }) (fun t => t.pc) = none := by decide
theorem witness_StoppedProgramStays : (at0 0x1200).Idle ∧ (at0 0x1200).Stopped := ⟨⟨rfl, rfl⟩, by decide, by decide⟩

/-- The clauses on the data result (X ≠ 15), at the boundary of each flag: sums 255 and 256, equal and borrowing
operands, the bit shifted out 0 and 1. -/
theorem witness_AddSetsCarry : (14 : Nibble) ≠ 15 ∧
    ¬ 255 < ((at0 0x8E14).setV 14 0xFF |>.getV 14).toNat + ((at0 0x8E14).setV 1 0 |>.getV 1).toNat ∧
    255 < ((at0 0x8E14).setV 14 0xFF |>.getV 14).toNat + ((at0 0x8E14).setV 1 1 |>.getV 1).toNat := by decide
theorem witness_SubSetsNotBorrow : (0 : Nibble) ≠ 15 ∧ (State.reset.getV 1).toNat ≤ (State.reset.getV 0).toNat ∧
    ¬ ((State.reset.setV 1 1).getV 1).toNat ≤ ((State.reset.setV 1 1).getV 0).toNat := by decide
theorem witness_SubnSetsNotBorrow : (0 : Nibble) ≠ 15 ∧ (State.reset.getV 0).toNat ≤ (State.reset.getV 1).toNat ∧
    ¬ ((State.reset.setV 0 1).getV 0).toNat ≤ ((State.reset.setV 0 1).getV 1).toNat := by decide
theorem witness_Shifts : (14 : Nibble) ≠ 15 ∧ ((State.reset.setV 14 0x81).getV 14).toNat % 2 = 1 ∧
    ((State.reset.setV 14 0x81).getV 14).toNat / 128 = 1 := by decide
theorem witness_RandomByteIsMasked_driven : ({ State.reset with rndPort := some 0xAB }).rndPort = some 0xAB := by decide
theorem witness_RandomByteIsMasked_free : State.reset.rndPort = none := by decide

theorem witness_ReturnPopsTopEntry_full : 0 < ({ State.reset with sp := 16 }).sp.val ∧
    (15 : Nibble).val + 1 = ({ State.reset with sp := 16 }).sp.val := by decide
theorem witness_ReturnPopsTopEntry_one : 0 < ({ State.reset with sp := 1 }).sp.val ∧
    (0 : Nibble).val + 1 = ({ State.reset with sp := 1 }).sp.val := by decide
theorem witness_ReturnOnEmptyStackReports : State.reset.sp = 0 := by decide
theorem witness_CallPushesReturnAddress : ({ State.reset with sp := 15 }).sp.val < 16 ∧
    (15 : Nibble).val = ({ State.reset with sp := 15 }).sp.val := by decide
theorem witness_CallOnFullStackReports : ({ State.reset with sp := 16 }).sp.val = 16 := by decide
theorem witness_CallThenReturnComesBack : State.reset.sp.val < 16 ∧ ({ State.reset with sp := 15 }).sp.val < 16 := by decide

/-- The last address in range and the first out of it: I + k is 0xFFF, then 0x1000. -/
theorem witness_data_addresses : dataAddr (State.reset.setI 0xFFE) 1 = 0xFFF ∧ dataAddr (State.reset.setI 0xFFE) 2 = 0x1000 ∧
    rangeEvents 0x200 0xFFE 3 = [{ code := .addr, pc := 0x200, info := 0x1000 }] := by decide
/-- The loop bounds of FX55 and FX65: X itself is in, X + 1 is not. -/
theorem witness_register_range : (15 : Nibble) ≤ 15 ∧ (0 : Nibble) ≤ 0 ∧ ¬ ((4 : Nibble) ≤ 3) := by decide
/-- FX55 with the least X and at the top of the register range; both meet the following instruction, the second
across the top of memory. -/
theorem witness_StoreIsSeenByNextFetch_FX55 :
    (1 : Nibble).val = (0 : Nibble).val + 1 ∧ (1 : Nibble) ≤ 1 ∧
    dataAddr (State.reset.setI 0x200) 0 % 4096 = (State.reset.setI 0x200).pc.toNat % 4096 ∧
    (15 : Nibble).val = (14 : Nibble).val + 1 ∧ (15 : Nibble) ≤ 15 ∧
    dataAddr ((State.reset.setPc 4).setI 0xFF6) 14 % 4096 = ((State.reset.setPc 4).setI 0xFF6).pc.toNat % 4096 := by decide
/-- FX33 with the following instruction under its first two digits, and under its last two. -/
theorem witness_StoreIsSeenByNextFetch_FX33 :
    dataAddr (State.reset.setI 0x200) 0 % 4096 = (State.reset.setI 0x200).pc.toNat % 4096 ∧
    dataAddr (State.reset.setI 0x1FF) 1 % 4096 = (State.reset.setI 0x1FF).pc.toNat % 4096 := by decide

/-- A one-row sprite with only its leftmost bit set, at I = 0x300. -/
def dotSprite : State := (withBytes 0x300 [0x80] (at0 0xD011)).setI 0x300

theorem witness_Draw_covered : dotSprite.SpriteCovers 0xFF 0xFF 1 31 63 :=
  ⟨0, 0, by decide, by decide, by decide, by decide, by decide⟩
theorem witness_Draw_uncovered : ¬ dotSprite.SpriteCovers 0xFF 0xFF 1 0 0 := by
  rintro ⟨row, column, hr, -, hy, -, -⟩
  have : row = 0 := by omega
  subst this
  exact absurd hy (by decide)
/-- The clause VF = 1: a covered pixel is on. -/
theorem witness_Draw_collision : ∃ q p, (dotSprite.setPixel 0 0 true).SpriteCovers 0 0 1 q p ∧
    (dotSprite.setPixel 0 0 true).pixel q p = true :=
  ⟨0, 0, ⟨0, 0, by decide, by decide, by decide, by decide, by decide⟩, by decide⟩
/-- The clause VF = 0, and the clear screen of the double draw: no pixel is on. -/
theorem witness_Draw_clear : ∀ q p, dotSprite.pixel q p = false := by
  intro q p
  simp [dotSprite, withBytes, at0, State.pixel, State.withFetchWord, placeWord, State.setI, State.reset]
theorem witness_DrawingTwice : (0 : Nibble) ≠ 15 ∧ (14 : Nibble) ≠ 15 ∧ ∃ q p, dotSprite.SpriteCovers 0 0 1 q p :=
  ⟨by decide, by decide, 0, 0, 0, 0, by decide, by decide, by decide, by decide, by decide⟩

theorem witness_WriteSoundTimer : State.reset.getV 0 = 0 ∧ (State.reset.setV 0 0xFF).getV 0 ≠ 0 := by decide
theorem witness_KeySkipsTestTheLatch_up : (10 : Nibble).val = ((State.reset.setV 1 0x1A).getV 1).toNat % 16 ∧
    (State.reset.setV 1 0x1A).key 10 = false := by decide
theorem witness_KeySkipsTestTheLatch_down : (15 : Nibble).val = ((State.reset.setKey 15 true).setV 1 0xFF |>.getV 1).toNat % 16 ∧
    ((State.reset.setKey 15 true).setV 1 0xFF).key 15 = true := by decide
theorem witness_KeyWaitStoresAPressedKey_only : (State.reset.setKey 15 true).key 15 = true ∧
    ∀ m, (State.reset.setKey 15 true).key m = true → m = 15 := by decide
theorem witness_KeyWaitStoresAPressedKey_several : ((State.reset.setKey 3 true).setKey 12 true).key 3 = true ∧
    ((State.reset.setKey 3 true).setKey 12 true).key 12 = true := by decide
theorem witness_KeyWaitRefetchesItself : (at0 0xF10A).Idle ∧ (at0 0xF10A).pc.toNat ≤ 0xFFE ∧
    decode (at0 0xF10A).fetchedWord = some (.ldVxK 1) ∧ ∀ k, (at0 0xF10A).key k = false :=
  ⟨⟨rfl, rfl⟩, by decide, by decide, by decide⟩
/-- The highest PC from which both bytes are in range. -/
theorem witness_KeyWaitRefetchesItself_top : ({ State.reset with pc := 0xFFE }.withFetchWord 16 0xFF0A).pc.toNat ≤ 0xFFE ∧
    decode ({ State.reset with pc := 0xFFE }.withFetchWord 16 0xFF0A).fetchedWord = some (.ldVxK 15) :=
  ⟨by decide, by decide⟩

theorem witness_AccessMatrixHolds : exec (.ldVxNn 3 7) State.reset = .next (State.reset.setV 3 7) := rfl
theorem witness_FaultBitsAreSticky : ({ at0 0x6005 with fault := 0b0100 }).fault.getLsbD FaultCode.stkUnf.bit.val = true ∧
    look (step { at0 0x6005 with fault := 0b0100 }) (fun t => t.fault) = some 0b0100 := by decide
/-- The one event that clears FAULT. -/
theorem witness_FaultBitsAreSticky_reset : ({ withEvent .reset with fault := 0b0100 }).NextEvent .reset [] ∧
    look (step { withEvent .reset with fault := 0b0100 }) (fun t => t.fault) = some 0 := ⟨⟨rfl, rfl⟩, by decide⟩
/-- A step that reports, one that reports nothing and is no `CpuStep`. -/
theorem witness_FaultsRaisedByInstructionsOnly :
    (at0 0x00EE).Idle ∧ look (step (at0 0x00EE)) (fun t => t.faultEvents.length) = some 1 ∧
    look (step (withEvent .timerTick)) (fun t => t.faultEvents.length) = some 0 := ⟨⟨rfl, rfl⟩, by decide, by decide⟩
theorem witness_FaultAndSoundTimerAreInvisible : exec (.ldStVx 3) State.reset = .next (State.reset.setSt 0) := rfl
/-- A step with a next state, and one that is refused. -/
theorem witness_FaultAndSoundTimerAreInvisible_step : step (withEvent .timerTick) = .next (timerTick State.reset |>.setDt 4) ∧
    step { withEvent (.load 0 7) with started := true } = .refused .loadDuringRun := ⟨rfl, rfl⟩

/-- A state that meets the invariant, with a fault reported, and that has a next state. -/
def oneFault : State :=
  { at0 0x6005 with
    fault := 0b0100, started := true, faultEvents := [{ code := .stkUnf, pc := 0x200, info := 0x00EE }] }

theorem witness_StepKeepsInvariant : Inv oneFault :=
  ⟨by decide, by intro c; cases c <;> decide, by simp [oneFault, FaultEvent.Ok]; decide, by decide⟩
theorem witness_StepKeepsInvariant_steps : look (step oneFault) (fun t => t.pc) = some 0x202 := by decide

end Sys2Proof.Tests
end

section
/-! The jumps of 40_flow.md: the widened operands as numbers, and the three instructions 0NNN, 1NNN and BNNN. -/

namespace Sys2Proof.Machine

/-! ## Widening keeps the number (30_encoding.md R53) -/

@[simp] theorem zextAddr_toNat (nnn : Addr12) : (zextAddr nnn).toNat = nnn.toNat :=
  BitVec.toNat_setWidth_of_le (by decide)

@[simp] theorem zextByte_toNat (b : Byte) : (zextByte b).toNat = b.toNat :=
  BitVec.toNat_setWidth_of_le (by decide)

/-- The largest sum, 0xFFF + 0xFF = 0x10FE, is far below 2^16, so the addition of 16-bit words does not wrap. -/
theorem zextAddr_add_zextByte_toNat (nnn : Addr12) (b : Byte) :
    (zextAddr nnn + zextByte b).toNat = nnn.toNat + b.toNat := by
  have hsum : (zextAddr nnn).toNat + (zextByte b).toNat < 2 ^ 16 := by
    have hnnn := nnn.isLt
    have hb := b.isLt
    rw [zextAddr_toNat, zextByte_toNat]
    omega
  rw [BitVec.toNat_add_of_lt hsum, zextAddr_toNat, zextByte_toNat]

/-! ## What the instructions answer -/

theorem exec_sysNnn (nnn : Addr12) (s : State) : exec (.sysNnn nnn) s = .next s := rfl

theorem exec_jpNnn (nnn : Addr12) (s : State) : exec (.jpNnn nnn) s = .next (s.setPc (zextAddr nnn)) := rfl

theorem exec_jpV0Nnn (nnn : Addr12) (s : State) :
    exec (.jpV0Nnn nnn) s = .next (s.setPc (zextAddr nnn + zextByte (s.getV 0))) := rfl

/-! ## The obligations -/

/-- Settles O30: the arm of 0NNN answers the state it is given (40_flow.md R73). -/
theorem sysIsNoOp : Obligations.SysIsNoOp := exec_sysNnn

/-- Settles O31: the only update is that of PC, by the widened NNN (40_flow.md R74). -/
theorem jumpSetsPc : Obligations.JumpSetsPc := fun nnn s =>
  ⟨s.setPc (zextAddr nnn), exec_jpNnn nnn s, zextAddr_toNat nnn, setPc_frame s _⟩

/-- Settles O39: the only update is that of PC, by a sum that does not wrap (40_flow.md R80). -/
theorem jumpIndexedAddsV0 : Obligations.JumpIndexedAddsV0 := fun nnn s =>
  ⟨s.setPc (zextAddr nnn + zextByte (s.getV 0)), exec_jpV0Nnn nnn s,
    zextAddr_add_zextByte_toNat nnn (s.getV 0), setPc_frame s _⟩

end Sys2Proof.Machine
end

section
/-! The instructions of 41_alu.md that write VX alone and compute no flag: 6XNN, 7XNN and 8XY0. -/

namespace Sys2Proof.Machine

/-! ## What the instructions answer -/

theorem exec_ldVxNn (x : Nibble) (nn : Byte) (s : State) : exec (.ldVxNn x nn) s = .next (s.setV x nn) := rfl

theorem exec_addVxNn (x : Nibble) (nn : Byte) (s : State) :
    exec (.addVxNn x nn) s = .next (s.setV x (s.getV x + nn)) := rfl

theorem exec_ldVxVy (x y : Nibble) (s : State) : exec (.ldVxVy x y) s = .next (s.setV x (s.getV y)) := rfl

/-! ## The obligations -/

/-- Settles O18: the only update is that of VX, by NN (41_alu.md R92). -/
theorem loadImmediateWritesVx : Obligations.LoadImmediateWritesVx := fun x nn s =>
  ⟨s.setV x nn, exec_ldVxNn x nn s, setV_getV_same s x nn, setV_frame s x nn⟩

/-- Settles O19: the only update is that of VX, by a sum of bytes, which wraps modulo 256 (41_alu.md R93). -/
theorem addImmediateWrapsWithoutFlag : Obligations.AddImmediateWrapsWithoutFlag := by
  intro x nn s
  refine ⟨s.setV x (s.getV x + nn), exec_addVxNn x nn s, ?_, setV_frame s x _⟩
  rw [setV_getV_same, BitVec.toNat_add]

/-- Settles O20: the only update is that of VX, by VY as it was before (41_alu.md R94). -/
theorem moveCopiesVyToVx : Obligations.MoveCopiesVyToVx := fun x y s =>
  ⟨s.setV x (s.getV y), exec_ldVxVy x y s, setV_getV_same s x _, setV_frame s x _⟩

end Sys2Proof.Machine
end

section
/-! The instructions of 42_index_memory.md that set I from an operand: ANNN and FX29. -/

namespace Sys2Proof.Machine

/-! ## The address of a digit sprite as a number (42_index_memory.md R112) -/

/-- The largest product, 255 × 5 = 0x04FB, is far below 2^16, so the address is not reduced. -/
@[simp] theorem digitAddr_toNat (b : Byte) : (digitAddr b).toNat = b.toNat * 5 := by
  have hfits : b.toNat * 5 < 2 ^ 16 := by
    have hb := b.isLt
    omega
  rw [digitAddr, BitVec.toNat_ofNat, Nat.mod_eq_of_lt hfits]

/-! ## What the instructions answer -/

theorem exec_ldINnn (nnn : Addr12) (s : State) : exec (.ldINnn nnn) s = .next (s.setI (zextAddr nnn)) := rfl

theorem exec_ldFVx (x : Nibble) (s : State) : exec (.ldFVx x) s = .next (s.setI (digitAddr (s.getV x))) := rfl

/-! ## The obligations -/

/-- Settles O40: the only update is that of I, by the widened NNN (42_index_memory.md R110). -/
theorem loadIndexSetsI : Obligations.LoadIndexSetsI := fun nnn s =>
  ⟨s.setI (zextAddr nnn), exec_ldINnn nnn s, zextAddr_toNat nnn, setI_frame s _⟩

/-- Settles O42: the only update is that of I, by a product that does not wrap (42_index_memory.md R112). -/
theorem digitSpriteAddressIsFiveTimesVx : Obligations.DigitSpriteAddressIsFiveTimesVx := fun x s =>
  ⟨s.setI (digitAddr (s.getV x)), exec_ldFVx x s, digitAddr_toNat (s.getV x), setI_frame s _⟩

end Sys2Proof.Machine
end

section
/-! The instruction of 43_display.md that clears the framebuffer: 00E0. -/

namespace Sys2Proof.Machine

/-! ## What the instruction answers -/

theorem exec_cls (s : State) : exec .cls s = .next s.clearFb := rfl

/-! ## The obligation -/

/-- Settles O47: the only update is that of the framebuffer, which reads as off at every coordinate afterwards
(43_display.md R121). -/
theorem clearTurnsEveryPixelOff : Obligations.ClearTurnsEveryPixelOff := fun s =>
  ⟨s.clearFb, exec_cls s, clearFb_pixel s, clearFb_frame s⟩

end Sys2Proof.Machine
end

section
/-! The instructions of 44_timers_input.md that move a byte between VX and DT: FX07 and FX15. -/

namespace Sys2Proof.Machine

/-! ## What the instructions answer -/

theorem exec_ldVxDt (x : Nibble) (s : State) : exec (.ldVxDt x) s = .next (s.setV x s.dt) := rfl

theorem exec_ldDtVx (x : Nibble) (s : State) : exec (.ldDtVx x) s = .next (s.setDt (s.getV x)) := rfl

/-! ## The obligations -/

/-- Settles O50: the only update is that of VX, by DT, so the frame keeps DT (44_timers_input.md R130). -/
theorem readDelayTimer : Obligations.ReadDelayTimer := fun x s =>
  ⟨s.setV x s.dt, exec_ldVxDt x s, setV_getV_same s x s.dt, setV_frame s x s.dt⟩

/-- Settles O51: the only update is that of DT, by VX (44_timers_input.md R131). -/
theorem writeDelayTimer : Obligations.WriteDelayTimer := fun x s =>
  ⟨s.setDt (s.getV x), exec_ldDtVx x s, setDt_dt s (s.getV x), setDt_frame s (s.getV x)⟩

end Sys2Proof.Machine
end

section
/-! The round trip of 30_encoding.md between words and instructions, family by family, and the words of no
instruction. -/

namespace Sys2Proof

/-! ## The family of a word selects its decoder (R54) -/

theorem decode_of_family0 {op : Word} (h : fieldT op = 0x0#4) : decode op = decode0 op := by simp [decode, h]

theorem decode_of_family8 {op : Word} (h : fieldT op = 0x8#4) : decode op = decode8 op := by simp [decode, h]

theorem decode_of_familyE {op : Word} (h : fieldT op = 0xE#4) : decode op = decodeE op := by simp [decode, h]

theorem decode_of_familyF {op : Word} (h : fieldT op = 0xF#4) : decode op = decodeF op := by simp [decode, h]

/-! ## From the instruction to its word and back -/

/-- 0NNN decodes to itself away from the two words of R56. -/
theorem decode_encode_sysNnn {nnn : Addr12} (h : (Instr.sysNnn nnn).wf = true) :
    decode (encode (.sysNnn nnn)) = some (.sysNnn nnn) := by
  obtain ⟨hcls, hret⟩ : nnn ≠ 0x0E0#12 ∧ nnn ≠ 0x0EE#12 := by simpa [Instr.wf] using h
  simp [encode, decode_of_family0, decode0, hcls, hret]

theorem decode_encode (i : Instr) (h : i.wf = true) : decode (encode i) = some i := by
  cases i
  case cls | ret => decide
  case sysNnn nnn => exact decode_encode_sysNnn h
  case jpNnn | callNnn | ldINnn | jpV0Nnn => simp [encode, decode]
  case seVxNn | sneVxNn | ldVxNn | addVxNn | rndVxNn => simp [encode, decode]
  case seVxVy | sneVxVy | drwVxVyN => simp [encode, decode]
  case ldVxVy | orVxVy | andVxVy | xorVxVy | addVxVy | subVxVy | shrVx | subnVxVy | shlVx =>
    simp [encode, decode_of_family8, decode8]
  case skpVx | sknpVx => simp [encode, decode_of_familyE, decodeE]
  case ldVxDt | ldVxK | ldDtVx | ldStVx | addIVx | ldFVx | ldBVx | ldMemVx | ldVxMem =>
    simp [encode, decode_of_familyF, decodeF]

/-- Settles O1: the fields of a composed word are its parts, so each family's decoder finds them again. -/
theorem decodeOfEncodeIsIdentity : Obligations.DecodeOfEncodeIsIdentity := decode_encode

/-- Settles O3: the two bytes make the instruction's word up again, and the word decodes to the instruction. -/
theorem bytesDecodeBigEndian : Obligations.BytesDecodeBigEndian := by
  intro i rest h
  simp [decodeBytes, wordOfBytes_extract, decode_encode i h]

/-- Settles O5: the decoder computes on each of the ten words. -/
theorem sampleWordsDecode : Obligations.SampleWordsDecode := by
  unfold Obligations.SampleWordsDecode
  decide

/-! ## From the word to its instruction and back -/

/-- A word of format ADDR or FIXED is put together from its family and its field NNN. -/
theorem wordNNN_of_fields {op : Word} {t : BitVec 4} {nnn : Addr12} (ht : fieldT op = t) (hn : fieldNNN op = nnn) :
    wordNNN t nnn = op := by
  rw [← ht, ← hn, wordNNN_fields]

/-- A word of format REG_IMM or REG_SUB is put together from its family, X and its field NN. -/
theorem wordXNN_of_fields {op : Word} {t : BitVec 4} {nn : Byte} (ht : fieldT op = t) (hn : fieldNN op = nn) :
    wordXNN t (fieldX op) nn = op := by
  rw [← ht, ← hn, wordXNN_fields]

/-- A word of format REG_REG or REG_REG_N is put together from its family, X, Y and its field N. -/
theorem wordXYN_of_fields {op : Word} {t n : BitVec 4} (ht : fieldT op = t) (hn : BitVec.ofFin (fieldN op) = n) :
    wordXYN t (fieldX op) (fieldY op) n = op := by
  rw [← ht, ← hn, wordXYN_fields]

theorem encode_of_decode0 {op : Word} {i : Instr} (ht : fieldT op = 0x0#4) (h : decode0 op = some i) :
    encode i = op ∧ i.wf = true := by
  unfold decode0 at h
  split at h
  next hn =>
    cases h
    exact ⟨wordNNN_of_fields ht hn, rfl⟩
  next hcls =>
    split at h
    next hn =>
      cases h
      exact ⟨wordNNN_of_fields ht hn, rfl⟩
    next hret =>
      cases h
      exact ⟨wordNNN_of_fields ht rfl, by simp [Instr.wf, hcls, hret]⟩

theorem encode_of_decode8 {op : Word} {i : Instr} (ht : fieldT op = 0x8#4) (h : decode8 op = some i) :
    encode i = op ∧ i.wf = true := by
  unfold decode8 at h
  split at h
  case h_10 => cases h
  all_goals
    next hn =>
      cases h
      exact ⟨wordXYN_of_fields ht (congrArg BitVec.ofFin (Fin.ext hn)), rfl⟩

theorem encode_of_decodeE {op : Word} {i : Instr} (ht : fieldT op = 0xE#4) (h : decodeE op = some i) :
    encode i = op ∧ i.wf = true := by
  unfold decodeE at h
  split at h
  case h_3 => cases h
  all_goals
    next hn =>
      cases h
      exact ⟨wordXNN_of_fields ht (BitVec.eq_of_toNat_eq hn), rfl⟩

theorem encode_of_decodeF {op : Word} {i : Instr} (ht : fieldT op = 0xF#4) (h : decodeF op = some i) :
    encode i = op ∧ i.wf = true := by
  unfold decodeF at h
  split at h
  case h_10 => cases h
  all_goals
    next hn =>
      cases h
      exact ⟨wordXNN_of_fields ht (BitVec.eq_of_toNat_eq hn), rfl⟩

/-- The last family, for a word that is in none of the fifteen others. -/
theorem fieldT_eq_F {op : Word}
    (h : ∀ k < 15, (fieldT op).toNat ≠ k) : fieldT op = 0xF#4 := by
  apply BitVec.eq_of_toNat_eq
  have hlt := (fieldT op).isLt
  have hge : ¬ (fieldT op).toNat < 15 := fun hlt => h _ hlt rfl
  show (fieldT op).toNat = 15
  omega

theorem encode_of_decode {op : Word} {i : Instr} (h : decode op = some i) : encode i = op ∧ i.wf = true := by
  unfold decode at h
  split at h
  case h_1 ht => exact encode_of_decode0 (BitVec.eq_of_toNat_eq ht) h
  case h_9 ht => exact encode_of_decode8 (BitVec.eq_of_toNat_eq ht) h
  case h_15 ht => exact encode_of_decodeE (BitVec.eq_of_toNat_eq ht) h
  case h_16 => exact encode_of_decodeF (fieldT_eq_F (fun k hk => by interval_cases k <;> assumption)) h
  case h_2 ht | h_3 ht | h_11 ht | h_12 ht =>
    cases h
    exact ⟨wordNNN_of_fields (BitVec.eq_of_toNat_eq ht) rfl, rfl⟩
  case h_4 ht | h_5 ht | h_7 ht | h_8 ht | h_13 ht =>
    cases h
    exact ⟨wordXNN_of_fields (BitVec.eq_of_toNat_eq ht) rfl, rfl⟩
  case h_6 ht | h_10 ht =>
    obtain ⟨hn, h⟩ := Option.ite_none_right_eq_some.1 h
    cases h
    exact ⟨wordXYN_of_fields (BitVec.eq_of_toNat_eq ht) (congrArg BitVec.ofFin hn), rfl⟩
  case h_14 ht =>
    cases h
    exact ⟨wordXYN_of_fields (BitVec.eq_of_toNat_eq ht) rfl, rfl⟩

/-- Settles O2: each family's decoder fixes the fields its pattern names, and a word is made of its fields. -/
theorem encodeOfDecodeIsIdentity : Obligations.EncodeOfDecodeIsIdentity := fun _ _ h => encode_of_decode h

/-! ## The words of no instruction (R57) -/

theorem decode0_ne_none (op : Word) : decode0 op ≠ none := by
  unfold decode0
  split
  · simp
  · split <;> simp

theorem decode8_eq_none (op : Word) :
    decode8 op = none ↔ (fieldN op).val ∈ [0x8, 0x9, 0xA, 0xB, 0xC, 0xD, 0xF] := by
  unfold decode8
  split
  case h_10 =>
    have hlt := (fieldN op).isLt
    simp_all
    omega
  all_goals
    next hn => simp [hn]

theorem decodeE_eq_none (op : Word) : decodeE op = none ↔ (fieldNN op).toNat ∉ [0x9E, 0xA1] := by
  unfold decodeE
  split
  case h_3 => simp_all
  all_goals
    next hn => simp [hn]

theorem decodeF_eq_none (op : Word) :
    decodeF op = none ↔ (fieldNN op).toNat ∉ [0x07, 0x0A, 0x15, 0x18, 0x1E, 0x29, 0x33, 0x55, 0x65] := by
  unfold decodeF
  split
  case h_10 => simp_all
  all_goals
    next hn => simp [hn]

/-- Settles O4: of each family's words, those its decoder gives no instruction; the other families have none. -/
theorem unknownWordsAreThoseListed : Obligations.UnknownWordsAreThoseListed := by
  intro op
  unfold decode
  split
  case h_16 =>
    have ht : fieldT op = 0xF#4 := fieldT_eq_F (fun k hk => by interval_cases k <;> assumption)
    simp [ht, decodeF_eq_none]
  all_goals
    next ht => simp [← BitVec.toNat_inj, ht, decode0_ne_none, decode8_eq_none, decodeE_eq_none]

end Sys2Proof
end

section
/-! The instructions of 41_alu.md with a flag (8XY4 to 8XY7, 8XYE), the three bitwise ones (8XY1 to 8XY3) and the
random byte (CXNN). -/

namespace Sys2Proof.Machine

/-! ## The flags as numbers (41_alu.md R90) -/

theorem flagByte_carry (vx vy : Byte) :
    flagByte (carry vx vy) = if 255 < vx.toNat + vy.toNat then 1 else 0 := by
  simp [flagByte, carry]

theorem flagByte_notBorrow (minuend subtrahend : Byte) :
    flagByte (notBorrow minuend subtrahend) = if subtrahend.toNat ≤ minuend.toNat then 1 else 0 := by
  simp [flagByte, notBorrow]

/-- VF receives 0 or 1. -/
theorem flagByte_toNat (b : Bool) : (flagByte b).toNat = b.toNat := by cases b <;> rfl

theorem flagByte_lowBit_toNat (vx : Byte) : (flagByte (lowBit vx)).toNat = vx.toNat % 2 := by
  rw [flagByte_toNat, lowBit, BitVec.getLsbD, Nat.toNat_testBit, pow_zero, Nat.div_one]

theorem flagByte_highBit_toNat (vx : Byte) : (flagByte (highBit vx)).toNat = vx.toNat / 128 := by
  have hlt := vx.isLt
  rw [flagByte_toNat, highBit, BitVec.getLsbD, Nat.toNat_testBit]
  omega

/-- The difference of two bytes, in natural numbers: 256 stands in for the borrow. -/
theorem byte_sub_toNat (a b : Byte) : (a - b).toNat = (a.toNat + 256 - b.toNat) % 256 := by
  have ha := a.isLt
  have hb := b.isLt
  rw [BitVec.toNat_sub]
  omega

/-! ## What the instructions answer -/

theorem exec_orVxVy (x y : Nibble) (s : State) :
    exec (.orVxVy x y) s = .next (s.setV x (s.getV x ||| s.getV y)) := rfl

theorem exec_andVxVy (x y : Nibble) (s : State) :
    exec (.andVxVy x y) s = .next (s.setV x (s.getV x &&& s.getV y)) := rfl

theorem exec_xorVxVy (x y : Nibble) (s : State) :
    exec (.xorVxVy x y) s = .next (s.setV x (s.getV x ^^^ s.getV y)) := rfl

theorem exec_addVxVy (x y : Nibble) (s : State) :
    exec (.addVxVy x y) s = .next (writeWithFlag x (s.getV x + s.getV y) (carry (s.getV x) (s.getV y)) s) := rfl

theorem exec_subVxVy (x y : Nibble) (s : State) :
    exec (.subVxVy x y) s = .next (writeWithFlag x (s.getV x - s.getV y) (notBorrow (s.getV x) (s.getV y)) s) := rfl

theorem exec_subnVxVy (x y : Nibble) (s : State) :
    exec (.subnVxVy x y) s = .next (writeWithFlag x (s.getV y - s.getV x) (notBorrow (s.getV y) (s.getV x)) s) := rfl

theorem exec_shrVx (x y : Nibble) (s : State) :
    exec (.shrVx x y) s = .next (writeWithFlag x (s.getV x >>> 1) (lowBit (s.getV x)) s) := rfl

theorem exec_shlVx (x y : Nibble) (s : State) :
    exec (.shlVx x y) s = .next (writeWithFlag x (s.getV x <<< 1) (highBit (s.getV x)) s) := rfl

theorem exec_rndVxNn (x : Nibble) (nn : Byte) (s : State) :
    exec (.rndVxNn x nn) s = .next (s.setV x (s.rndByte &&& nn)).countDraw := rfl

/-! ## The random byte (41_alu.md R103) -/

theorem rndByte_driven {s : State} {r : Byte} (h : s.rndPort = some r) : s.rndByte = r := by simp [State.rndByte, h]

theorem rndByte_free {s : State} (h : s.rndPort = none) : s.rndByte = Config.rnd s.rndDraws := by
  simp [State.rndByte, h]

theorem rndVxNn_frame (x : Nibble) (b : Byte) (s : State) :
    FrameExcept (fun p => p = .v x ∨ p = .rndDraws) s (s.setV x b).countDraw :=
  ((setV_frame s x b).mono fun _ => .inl).trans ((countDraw_frame _).mono fun _ => .inr)

/-! ## The obligations -/

/-- Settles O21: each of the three writes VX alone, and its byte operation acts bit by bit (41_alu.md R95 to R97). -/
theorem logicOperationsActBitwise : Obligations.LogicOperationsActBitwise := by
  intro x y s
  refine ⟨⟨_, exec_orVxVy x y s, fun b _ => ?_, setV_frame s x _⟩,
    ⟨_, exec_andVxVy x y s, fun b _ => ?_, setV_frame s x _⟩,
    ⟨_, exec_xorVxVy x y s, fun b _ => ?_, setV_frame s x _⟩⟩
  · rw [setV_getV_same, BitVec.getLsbD_or]
  · rw [setV_getV_same, BitVec.getLsbD_and]
  · rw [setV_getV_same, BitVec.getLsbD_xor]

/-- Settles O22: the sum of two bytes, its carry, and the write law (41_alu.md R98, R91). -/
theorem addSetsCarry : Obligations.AddSetsCarry := by
  intro x y s
  refine ⟨_, exec_addVxVy x y s, fun hx => ?_, ?_, writeWithFlag_frame x _ _ s⟩
  · rw [writeWithFlag_result _ _ _ hx, BitVec.toNat_add]
  · rw [writeWithFlag_flag, flagByte_carry]

/-- Settles O23: the difference of two bytes, its borrow, and the write law (41_alu.md R99, R91). -/
theorem subSetsNotBorrow : Obligations.SubSetsNotBorrow := by
  intro x y s
  refine ⟨_, exec_subVxVy x y s, fun hx => ?_, ?_, writeWithFlag_frame x _ _ s⟩
  · rw [writeWithFlag_result _ _ _ hx, byte_sub_toNat]
  · rw [writeWithFlag_flag, flagByte_notBorrow]

/-- Settles O24: as for 8XY5 with the operands exchanged (41_alu.md R101, R91). -/
theorem subnSetsNotBorrow : Obligations.SubnSetsNotBorrow := by
  intro x y s
  refine ⟨_, exec_subnVxVy x y s, fun hx => ?_, ?_, writeWithFlag_frame x _ _ s⟩
  · rw [writeWithFlag_result _ _ _ hx, byte_sub_toNat]
  · rw [writeWithFlag_flag, flagByte_notBorrow]

/-- Settles O25: shifting right by one halves, and the flag is the remainder (41_alu.md R100, R91). -/
theorem shiftRightMovesLowBitToVf : Obligations.ShiftRightMovesLowBitToVf := by
  intro x y s
  refine ⟨_, exec_shrVx x y s, fun hx => ?_, ?_, writeWithFlag_frame x _ _ s⟩
  · rw [writeWithFlag_result _ _ _ hx, BitVec.toNat_ushiftRight, Nat.shiftRight_eq_div_pow, pow_one]
  · rw [writeWithFlag_flag, flagByte_lowBit_toNat]

/-- Settles O26: shifting left by one doubles modulo 256, and the flag is what 128 divides out (41_alu.md R102, R91). -/
theorem shiftLeftMovesHighBitToVf : Obligations.ShiftLeftMovesHighBitToVf := by
  intro x y s
  refine ⟨_, exec_shlVx x y s, fun hx => ?_, ?_, writeWithFlag_frame x _ _ s⟩
  · rw [writeWithFlag_result _ _ _ hx, BitVec.toNat_shiftLeft, Nat.shiftLeft_eq, pow_one]
  · rw [writeWithFlag_flag, flagByte_highBit_toNat]

/-- Settles O27: the byte on the port, or the next free one, is masked by NN, and a mask bounds what it masks
(41_alu.md R103). -/
theorem randomByteIsMasked : Obligations.RandomByteIsMasked := by
  intro x nn s
  refine ⟨_, exec_rndVxNn x nn s, fun r hr => ?_, fun hnone => ?_, ?_, rfl, rndVxNn_frame x _ s⟩
  · rw [countDraw_getV, setV_getV_same, rndByte_driven hr]
  · rw [countDraw_getV, setV_getV_same, rndByte_free hnone]
  · rw [countDraw_getV, setV_getV_same, BitVec.toNat_and]
    exact Nat.and_le_right

end Sys2Proof.Machine
end

section
/-! The subroutine and skip instructions of 40_flow.md: 00EE and 2NNN, 3XNN, 4XNN, 5XY0 and 9XY0. -/

namespace Sys2Proof.Machine

/-! ## What the instructions answer -/

theorem exec_ret (s : State) : exec .ret s = .next (popReturn (encode .ret) s) := rfl

theorem exec_callNnn (nnn : Addr12) (s : State) :
    exec (.callNnn nnn) s = .next (callTo (encode (.callNnn nnn)) (zextAddr nnn) s) := rfl

theorem exec_seVxNn (x : Nibble) (nn : Byte) (s : State) :
    exec (.seVxNn x nn) s = .next (skipIf (s.getV x == nn) s) := rfl

theorem exec_sneVxNn (x : Nibble) (nn : Byte) (s : State) :
    exec (.sneVxNn x nn) s = .next (skipIf (s.getV x != nn) s) := rfl

theorem exec_seVxVy (x y : Nibble) (s : State) :
    exec (.seVxVy x y) s = .next (skipIf (s.getV x == s.getV y) s) := rfl

theorem exec_sneVxVy (x y : Nibble) (s : State) :
    exec (.sneVxVy x y) s = .next (skipIf (s.getV x != s.getV y) s) := rfl

/-! ## The stack (40_flow.md R72, R75) -/

/-- A return that finds an entry writes PC and SP alone: the entry itself stays in the stack. -/
theorem popReturn_frame (op : Word) {s : State} (h : 0 < s.sp.val) :
    FrameExcept (fun p => p = .pc ∨ p = .sp) s (popReturn op s) := by
  rw [popReturn_pop op h]
  intro p hp
  cases p
  case pc => exact absurd (.inl rfl) hp
  case sp => exact absurd (.inr rfl) hp
  all_goals rfl

/-- A call that finds room writes PC, SP and the one entry at SP. -/
theorem callTo_frame (op target : Word) {s : State} (h : s.sp.val < 16) :
    FrameExcept (fun p => p = .pc ∨ p = .sp ∨ ∃ k, k.val = s.sp.val ∧ p = .stack k) s (callTo op target s) := by
  rw [callTo_push op target h]
  intro p hp
  cases p
  case stack k =>
    have hne : s.sp.val ≠ k.val := fun hk => hp (.inr (.inr ⟨k, hk.symm, rfl⟩))
    exact Vector.getElem_set_ne h k.isLt hne
  case pc => exact absurd (.inl rfl) hp
  case sp => exact absurd (.inr (.inl rfl)) hp
  all_goals rfl

/-- A word of format ADDR as the family's digit before NNN (30_encoding.md R55). -/
theorem wordNNN_eq_or (t : BitVec 4) (nnn : Addr12) : wordNNN t nnn = wordNNN t 0 ||| zextAddr nnn := by
  rw [wordNNN, wordNNN, BitVec.append_def, BitVec.append_def]
  simp [zextAddr]

theorem encode_callNnn (nnn : Addr12) : encode (.callNnn nnn) = 0x2000#16 ||| nnn.setWidth 16 :=
  wordNNN_eq_or 0x2 nnn

/-! ## The skip (40_flow.md R71) -/

theorem skipIf_pc (c : Bool) (s : State) : (skipIf c s).pc = if c then s.pc + 2 else s.pc := by
  rw [skipIf_eq, setPc_pc]

theorem skipIf_beq_pc (a b : Byte) (s : State) : (skipIf (a == b) s).pc = if a = b then s.pc + 2 else s.pc := by
  simp [skipIf_pc]

theorem skipIf_bne_pc (a b : Byte) (s : State) : (skipIf (a != b) s).pc = if a = b then s.pc else s.pc + 2 := by
  simp [skipIf_pc]

/-! ## The obligations -/

/-- Settles O28: with an entry in use the return pops the one below SP (40_flow.md R72). -/
theorem returnPopsTopEntry : Obligations.ReturnPopsTopEntry := by
  intro s h
  refine ⟨_, exec_ret s, ?_, fun k hk => ?_, popReturn_frame _ h⟩
  · rw [popReturn_pop _ h]
    exact Nat.sub_add_cancel h
  · have hk' : s.sp.val - 1 = k.val := by omega
    simp only [popReturn_pop _ h, hk']

/-- Settles O29: with no entry in use the return is one report (60_exceptions.md R144). -/
theorem returnOnEmptyStackReports : Obligations.ReturnOnEmptyStackReports := by
  intro s h
  refine ⟨_, exec_ret s, ?_⟩
  rw [popReturn_empty _ (by rw [h]; rfl)]
  exact ⟨report_reports .stkUnf s.instrAddr _ s, report_frame _ _ _ s⟩

/-- Settles O32: with room the call pushes PC at SP and goes to the widened NNN (40_flow.md R75). -/
theorem callPushesReturnAddress : Obligations.CallPushesReturnAddress := by
  intro nnn s h
  refine ⟨_, exec_callNnn nnn s, ?_, ?_, fun k hk => ?_, callTo_frame _ _ h⟩
  · rw [callTo_push _ _ h]
    exact zextAddr_toNat nnn
  · rw [callTo_push _ _ h]
  · simp only [callTo_push _ _ h, hk, Vector.getElem_set_self]

/-- Settles O33: on a full stack the call is one report of its own word (60_exceptions.md R143). -/
theorem callOnFullStackReports : Obligations.CallOnFullStackReports := by
  intro nnn s h
  refine ⟨_, exec_callNnn nnn s, ?_⟩
  rw [callTo_full _ _ h, encode_callNnn]
  exact ⟨report_reports .stkOvf s.instrAddr _ s, report_frame _ _ _ s⟩

/-- Settles O34: the call leaves SP above zero, so the return pops, and what it pops is the entry just pushed. -/
theorem callThenReturnComesBack : Obligations.CallThenReturnComesBack := by
  intro nnn w s h
  refine ⟨_, _, exec_callNnn nnn s, exec_ret _, ?_⟩
  rw [callTo_push _ _ h, popReturn_pop _ (Nat.succ_pos s.sp.val)]
  exact ⟨Vector.getElem_set_self h, rfl⟩

/-- Settles O35: the condition of the skip is the equality of VX and NN (40_flow.md R76). -/
theorem skipIfEqualImmediate : Obligations.SkipIfEqualImmediate := fun x nn s =>
  ⟨_, exec_seVxNn x nn s, skipIf_beq_pc _ nn s, skipIf_frame _ s⟩

/-- Settles O36: the condition of the skip is that VX differs from NN (40_flow.md R77). -/
theorem skipIfNotEqualImmediate : Obligations.SkipIfNotEqualImmediate := fun x nn s =>
  ⟨_, exec_sneVxNn x nn s, skipIf_bne_pc _ nn s, skipIf_frame _ s⟩

/-- Settles O37: the condition of the skip is the equality of VX and VY (40_flow.md R78). -/
theorem skipIfRegistersEqual : Obligations.SkipIfRegistersEqual := fun x y s =>
  ⟨_, exec_seVxVy x y s, skipIf_beq_pc _ _ s, skipIf_frame _ s⟩

/-- Settles O38: the condition of the skip is that VX differs from VY (40_flow.md R79). -/
theorem skipIfRegistersDiffer : Obligations.SkipIfRegistersDiffer := fun x y s =>
  ⟨_, exec_sneVxVy x y s, skipIf_bne_pc _ _ s, skipIf_frame _ s⟩

end Sys2Proof.Machine
end

section
/-! The instructions of 42_index_memory.md that add to I or move bytes between registers and memory: FX1E, FX33, FX55
and FX65. -/

namespace Sys2Proof.Machine

/-! ## The decimal digits as numbers (42_index_memory.md R113) -/

theorem hundreds_toNat (b : Byte) : (hundreds b).toNat = b.toNat / 100 := by
  have hb := b.isLt
  rw [hundreds, BitVec.toNat_ofNat]
  omega

theorem tens_toNat (b : Byte) : (tens b).toNat = b.toNat / 10 % 10 := by
  rw [tens, BitVec.toNat_ofNat]
  omega

theorem ones_toNat (b : Byte) : (ones b).toNat = b.toNat % 10 := by
  rw [ones, BitVec.toNat_ofNat]
  omega

/-! ## What the instructions answer -/

theorem exec_addIVx (x : Nibble) (s : State) :
    exec (.addIVx x) s = .next (s.setI (s.i + zextByte (s.getV x))) := rfl

theorem exec_ldBVx (x : Nibble) (s : State) :
    exec (.ldBVx x) s = .next (storeBcd s.instrAddr (s.getV x) s) := rfl

theorem exec_ldMemVx (x : Nibble) (s : State) :
    exec (.ldMemVx x) s = .next (storeRegs s.instrAddr (x.val + 1) s) := rfl

theorem exec_ldVxMem (x : Nibble) (s : State) :
    exec (.ldVxMem x) s = .next (loadRegs s.instrAddr (x.val + 1) s) := rfl

/-! ## The loops, register by register (42_index_memory.md R114, R115) -/

/-- FX55 reaches every register up to X. -/
theorem storeRegs_read_reg (a : Word) {x k : Nibble} (hk : k ≤ x) (s : State) :
    Memory.read (storeRegs a (x.val + 1) s).mem (dataAddr s k.val % 4096) = s.getV k := by
  have h := (storeRegs_read a (x.val + 1) (by omega) s).1 k.val (by have : k.val ≤ x.val := hk; omega)
  rwa [Fin.ofNat_eq_cast, Fin.cast_val_eq_self] at h

/-- FX65 reaches every register up to X and no other. -/
theorem loadRegs_frame_upTo (a : Word) (x : Nibble) (s : State) :
    FrameExcept (fun p => (∃ r : Nibble, r ≤ x ∧ p = .v r) ∨ p = .fault ∨ p = .faultEvents) s
      (loadRegs a (x.val + 1) s) := by
  refine (loadRegs_frame a (x.val + 1) (by omega) s).mono (fun p hp => hp.imp_left ?_)
  rintro ⟨r, hr, rfl⟩
  exact ⟨r, Nat.le_of_lt_succ hr, rfl⟩

/-! ## The next fetch after a store (20_memory.md R46) -/

/-- Where the data address of one byte falls on PC, that of the next byte falls on PC + 1. -/
theorem dataAddr_succ_mod {s : State} {k : Nat} (h : dataAddr s k % 4096 = s.pc.toNat % 4096) :
    dataAddr s (k + 1) % 4096 = (s.pc.toNat + 1) % 4096 := by
  unfold dataAddr at h ⊢
  omega

/-- The next fetch reads the two bytes at data addresses k and k + 1, where these meet PC, as a word. -/
theorem fetchedWord_of_dataAddr {s t : State} {k : Nat} (hpc : t.pc = s.pc)
    (h : dataAddr s k % 4096 = s.pc.toNat % 4096) :
    t.fetchedWord = wordOfBytes (Memory.read t.mem (dataAddr s k % 4096))
      (Memory.read t.mem (dataAddr s (k + 1) % 4096)) := by
  rw [State.fetchedWord, hpc, h, dataAddr_succ_mod h]

theorem wordOfBytes_toNat (hi lo : Byte) : (wordOfBytes hi lo).toNat = 256 * hi.toNat + lo.toNat := by
  rw [wordOfBytes, BitVec.toNat_append, Nat.shiftLeft_eq, Nat.mul_comm]
  exact (Nat.two_pow_add_eq_or_of_lt lo.isLt _).symm

theorem storeRegs_pc (a : Word) (n : Nat) (s : State) : (storeRegs a n s).pc = s.pc :=
  storeRegs_frame a n s .pc (by simp)

theorem storeBcd_pc (a : Word) (vx : Byte) (s : State) : (storeBcd a vx s).pc = s.pc := by simp [storeBcd]

/-! ## The obligations -/

/-- Settles O41: the only update is that of I, by a sum of words, which wraps modulo 65536 (42_index_memory.md R111). -/
theorem addToIndexWrapsAt16Bits : Obligations.AddToIndexWrapsAt16Bits := by
  intro x s
  refine ⟨_, exec_addIVx x s, ?_, setI_frame s _⟩
  rw [setI_i, BitVec.toNat_add, zextByte_toNat]

/-- Settles O43: the three bytes written are the digits, which are the only ones that make up VX
(42_index_memory.md R113). -/
theorem bcdStoresThreeDigits : Obligations.BcdStoresThreeDigits := by
  intro x s
  obtain ⟨hh, hd, ho⟩ := storeBcd_read s.instrAddr (s.getV x) s
  refine ⟨_, exec_ldBVx x s, ⟨(s.getV x).toNat / 100, (s.getV x).toNat / 10 % 10, (s.getV x).toNat % 10, ?_⟩,
    storeBcd_reports _ _ s, storeBcd_frame _ _ s⟩
  have hlt := (s.getV x).isLt
  rw [hh, hd, ho, hundreds_toNat, tens_toNat, ones_toNat]
  omega

/-- Settles O44: what FX55's loop does, with its bound X + 1 read as "up to X" (42_index_memory.md R114). -/
theorem storeRegistersWritesMemory : Obligations.StoreRegistersWritesMemory := fun x s =>
  ⟨_, exec_ldMemVx x s, fun _ hk => storeRegs_read_reg _ hk s, storeRegs_reports _ _ s, storeRegs_frame _ _ s⟩

/-- Settles O45: what FX65's loop does, with its bound X + 1 read as "up to X" (42_index_memory.md R115). -/
theorem loadRegistersReadsMemory : Obligations.LoadRegistersReadsMemory := by
  intro x s
  refine ⟨_, exec_ldVxMem x s, fun k hk => ?_, loadRegs_reports _ _ s, loadRegs_frame_upTo _ x s⟩
  rw [loadRegs_getV _ _ (by omega), if_pos (Nat.lt_succ_of_le hk)]

/-- Settles O46: the stores keep PC, so the next fetch reads the stored bytes where they meet it (20_memory.md R46). -/
theorem storeIsSeenByNextFetch : Obligations.StoreIsSeenByNextFetch := by
  refine ⟨fun x k m s hm hx h => ⟨_, exec_ldMemVx x s, ?_⟩, fun x s => ⟨_, exec_ldBVx x s, fun h => ?_, fun h => ?_⟩⟩
  · have hk : k ≤ x := le_trans (by rw [Fin.le_def]; omega) hx
    rw [fetchedWord_of_dataAddr (storeRegs_pc _ _ s) h, ← hm, storeRegs_read_reg _ hk, storeRegs_read_reg _ hx]
    rfl
  · obtain ⟨hh, hd, -⟩ := storeBcd_read s.instrAddr (s.getV x) s
    rw [fetchedWord_of_dataAddr (storeBcd_pc _ _ s) h, hh, hd, wordOfBytes_toNat, hundreds_toNat, tens_toNat]
  · obtain ⟨-, hd, ho⟩ := storeBcd_read s.instrAddr (s.getV x) s
    rw [fetchedWord_of_dataAddr (storeBcd_pc _ _ s) h, hd, ho, wordOfBytes_toNat, tens_toNat, ones_toNat]

end Sys2Proof.Machine
end

section
/-! The sprite instruction of 43_display.md: DXYN. -/

namespace Sys2Proof.Machine

/-! ## What the instruction answers -/

theorem exec_drwVxVyN (x y n : Nibble) (s : State) :
    exec (.drwVxVyN x y n) s =
      .next (drawSprite s.instrAddr (s.getV x) (s.getV y) n.val (s.setV 15 0)) := rfl

/-- Clearing VF and drawing write pixels, VF and the reports. -/
theorem drwVxVyN_frame (a : Word) (x0 y0 : Byte) (n : Nat) (s : State) :
    FrameExcept (fun p => (∃ q r, p = .pixel q r) ∨ p = .v 15 ∨ p = .fault ∨ p = .faultEvents) s
      (drawSprite a x0 y0 n (s.setV 15 0)) :=
  ((setV_frame s 15 0).mono fun _ h => .inr (.inl h)).trans (drawSprite_frame a x0 y0 n _)

/-- What a sprite covers depends on I and on the bytes of memory alone. -/
theorem spriteCovers_congr {s t : State} (hi : t.i = s.i) (hm : ∀ a, Memory.read t.mem a = Memory.read s.mem a)
    (x0 y0 : Byte) (n : Nat) (q : Fin 32) (p : Fin 64) :
    t.SpriteCovers x0 y0 n q p ↔ s.SpriteCovers x0 y0 n q p := by
  simp only [State.SpriteCovers, dataAddr, hi, hm]

/-! ## The obligations -/

/-- Settles O48: what the sprite engine does from the state in which VF is cleared; clearing VF moves neither the
sprite nor a pixel (43_display.md R122). -/
theorem drawTogglesCoveredPixels : Obligations.DrawTogglesCoveredPixels := by
  intro x y n s
  have hn : n.val ≤ 16 := n.isLt.le
  have hpixel := drawSprite_pixel s.instrAddr (s.getV x) (s.getV y) n.val hn (s.setV 15 0)
  obtain ⟨hcollision, hclear⟩ := drawSprite_vf s.instrAddr (s.getV x) (s.getV y) n.val hn (s.setV 15 0)
  exact ⟨_, exec_drwVxVyN x y n s, fun q p => (hpixel q p).1, fun q p => (hpixel q p).2, hcollision,
    fun h => (hclear h).trans (setV_getV_same s 15 0),
    drawSprite_reports s.instrAddr (s.getV x) (s.getV y) n.val (s.setV 15 0), drwVxVyN_frame _ _ _ _ s⟩

/-- Settles O49: the first draw keeps I, memory and both coordinates, so the second covers the same pixels and toggles
each back; from a clear screen every pixel the second covers is on (43_display.md R122). -/
theorem drawingTwiceRestoresTheScreen : Obligations.DrawingTwiceRestoresTheScreen := by
  intro x y n s hx hy
  obtain ⟨t, ht, hton, htoff, -, htclear, -, hframe⟩ := drawTogglesCoveredPixels x y n s
  obtain ⟨u, hu, huon, huoff, hucollision, -, -, -⟩ := drawTogglesCoveredPixels x y n t
  have hvx : t.getV x = s.getV x := hframe (.v x) (by simp [hx])
  have hvy : t.getV y = s.getV y := hframe (.v y) (by simp [hy])
  have hcovers : ∀ q p,
      t.SpriteCovers (t.getV x) (t.getV y) n.val q p ↔ s.SpriteCovers (s.getV x) (s.getV y) n.val q p := by
    rw [hvx, hvy]
    exact spriteCovers_congr (hframe .i (by simp)) (fun a => hframe (.mem a) (by simp)) _ _ _
  refine ⟨t, u, ht, hu, fun q p => ?_, fun hoff => ⟨htclear (fun q p _ => hoff q p), ?_⟩⟩
  · by_cases hc : s.SpriteCovers (s.getV x) (s.getV y) n.val q p
    · rw [huon q p ((hcovers q p).2 hc), hton q p hc, Bool.not_not]
    · rw [huoff q p (fun h => hc ((hcovers q p).1 h)), htoff q p hc]
  · rintro ⟨q, p, hc⟩
    exact hucollision ⟨q, p, (hcovers q p).2 hc, by rw [hton q p hc, hoff q p, Bool.not_false]⟩

end Sys2Proof.Machine
end

section
/-! The instruction cycle of 40_flow.md R70: what the fetch leaves, the step over a known word, over an unknown word
and over a jump to itself, and that no step but one has no next state. -/

namespace Sys2Proof.Machine

/-! ## The fetch -/

/-- The fetch reports its out-of-range bytes and nothing else. -/
theorem afterFetch_reports (s : State) (rnd : Option Byte) :
    Reports s (s.afterFetch rnd) (rangeEvents s.pc s.pc.toNat 2) := ⟨rfl, rfl⟩

theorem afterFetch_frame (s : State) (rnd : Option Byte) :
    FrameExcept (fun p => p = .pc ∨ p = .fault ∨ p = .faultEvents ∨ p = .started ∨ p = .rndPort) s
      (s.afterFetch rnd) := by
  intro p hp
  cases p
  case pc | fault | faultEvents | started | rndPort => simp at hp
  all_goals rfl

/-- PC is past the instruction, whose address is thus found again. -/
theorem afterFetch_instrAddr (s : State) (rnd : Option Byte) : (s.afterFetch rnd).instrAddr = s.pc :=
  BitVec.add_sub_cancel s.pc 2

/-- With both bytes in range the fetch reports nothing. -/
theorem afterFetch_inRange {s : State} (h : s.pc.toNat ≤ 0xFFE) (rnd : Option Byte) :
    s.afterFetch rnd = { s with pc := s.pc + 2, started := true, rndPort := rnd } := by
  simp [State.afterFetch, rangeEvents_inRange s.pc (show s.pc.toNat + 2 ≤ 4096 by omega), faultAfter]

/-! ## The dispatch -/

theorem cpuStep_known {s : State} {i : Instr} (h : decode s.fetchedWord = some i) (rnd : Option Byte) :
    cpuStep rnd s = exec i (s.afterFetch rnd) := by
  rw [cpuStep_eq, dispatch, h]

theorem cpuStep_unknown {s : State} (h : decode s.fetchedWord = none) (rnd : Option Byte) :
    cpuStep rnd s = .next (report .unk s.pc s.fetchedWord (s.afterFetch rnd)) := by
  rw [cpuStep_eq, dispatch, h, afterFetch_instrAddr]

/-- Faults are reported and execution continues, so no instruction stops the machine (60_exceptions.md R141). -/
theorem exec_next (i : Instr) (s : State) : ∃ t, exec i s = .next t := by cases i <;> exact ⟨_, rfl⟩

theorem cpuStep_next (rnd : Option Byte) (s : State) : ∃ t, cpuStep rnd s = .next t := by
  rcases h : decode s.fetchedWord with - | i
  · exact ⟨_, cpuStep_unknown h rnd⟩
  · rw [cpuStep_known h]
    exact exec_next i _

/-- What an unknown word does, whatever drives the cycle (60_exceptions.md R142). -/
theorem unknown_reports (s : State) (rnd : Option Byte) :
    Reports s (report .unk s.pc s.fetchedWord (s.afterFetch rnd))
      (rangeEvents s.pc s.pc.toNat 2 ++ [{ code := .unk, pc := s.pc, info := s.fetchedWord }]) :=
  (afterFetch_reports s rnd).trans (report_reports .unk s.pc s.fetchedWord _)

theorem unknown_frame (s : State) (rnd : Option Byte) :
    FrameExcept (fun p => p = .pc ∨ p = .fault ∨ p = .faultEvents ∨ p = .started ∨ p = .rndPort) s
      (report .unk s.pc s.fetchedWord (s.afterFetch rnd)) :=
  (afterFetch_frame s rnd).trans ((report_frame _ _ _ _).mono fun _ h => .inr (h.imp_right .inl))

/-! ## The events -/

/-- A `Load` is refused exactly during a run (20_memory.md R49). -/
theorem loadEvent_started {s : State} (h : s.started = true) (a : Addr12) (b : Byte) :
    loadEvent a b s = .refused .loadDuringRun := if_pos h

theorem loadEvent_unstarted {s : State} (h : s.started = false) (a : Addr12) (b : Byte) :
    loadEvent a b s = .next { s with mem := Memory.write s.mem a.toNat b } := if_neg (by simp [h])

/-- Every event but a `Load` during a run has a next state. -/
theorem applyEvent_next_or_load (e : Event) (s : State) :
    (∃ t, applyEvent e s = .next t) ∨
    (applyEvent e s = .refused .loadDuringRun ∧ s.started = true ∧ ∃ a b, e = .load a b) := by
  cases e
  case load a b =>
    rcases h : s.started
    · exact .inl ⟨_, loadEvent_unstarted h a b⟩
    · exact .inr ⟨loadEvent_started h a b, rfl, a, b, rfl⟩
  case cpuStep rnd => exact .inl (cpuStep_next _ s)
  all_goals exact .inl ⟨_, rfl⟩

/-! ## The jump to itself (70_reset_and_hazards.md R175) -/

theorem zextAddr_setWidth {w : Word} (h : w.toNat ≤ 0xFFE) : zextAddr (w.setWidth 12) = w := by
  apply BitVec.eq_of_toNat_eq
  rw [zextAddr_toNat, BitVec.toNat_setWidth]
  omega

/-- The word at the PC of a stopped program is the jump to that PC. -/
theorem decode_fetchedWord_of_stopped {s : State} (h : s.Stopped) :
    decode s.fetchedWord = some (.jpNnn (s.pc.setWidth 12)) := by
  obtain ⟨hpc, hword⟩ := h
  have hencode : encode (.jpNnn (s.pc.setWidth 12)) = 0x1000#16 ||| s.pc := by
    conv_rhs => rw [← zextAddr_setWidth hpc]
    exact wordNNN_eq_or 0x1 _
  rw [hword, ← hencode, decode_encode _ rfl]

/-! ## The obligations -/

/-- Settles O10: a step is a `CpuStep` when nothing or a `CpuStep` is due, and that dispatches the fetched word. -/
theorem stepRunsDecodedInstruction : Obligations.StepRunsDecodedInstruction := by
  intro s i hdec
  refine ⟨fun hidle => ?_, fun rnd es hev => ?_⟩
  · rw [step_idle hidle, cpuStep_known hdec]
  · rw [step_event hev]
    exact cpuStep_known (s := s.withSchedule es) hdec (some rnd)

/-- Settles O11: the step over an unknown word is the fetch and one report (60_exceptions.md R142). -/
theorem unknownWordReportsAndContinues : Obligations.UnknownWordReportsAndContinues := by
  intro s hdec
  refine ⟨fun hidle => ?_, fun rnd es hev => ?_⟩
  · exact ⟨_, (step_idle hidle).trans (cpuStep_unknown hdec none), rfl, rfl, rfl, unknown_reports s none,
      unknown_frame s none⟩
  · refine ⟨_, (step_event hev).trans (cpuStep_unknown (s := s.withSchedule es) hdec (some rnd)), rfl, rfl, rfl, rfl,
      unknown_reports (s.withSchedule es) (some rnd), ?_⟩
    have hfetch := unknown_frame (s.withSchedule es) (some rnd)
    refine ((withSchedule_frame s es).mono ?_).trans (hfetch.mono ?_)
    · exact fun p h => .inr (.inr (.inr (.inr (.inr h))))
    · exact fun p h => h.imp_right (Or.imp_right (Or.imp_right (Or.imp_right .inl)))

/-- Settles O16: a tick is delivered, a `CpuStep` has a next state, and of the events only `Load` is ever refused. -/
theorem onlyLoadDuringRunStops : Obligations.OnlyLoadDuringRunStops := by
  intro s
  rcases step_cases s with ⟨-, h⟩ | ⟨-, h⟩ | ⟨e, es, hev, h⟩
  · exact .inl ⟨_, h⟩
  · rw [h]
    exact .inl (cpuStep_next none s)
  · rw [h]
    refine (applyEvent_next_or_load e (s.withSchedule es)).imp_right ?_
    rintro ⟨hrefused, hstarted, a, b, rfl⟩
    exact ⟨hrefused, hstarted, a, b, es, hev⟩

/-- Settles O17: the fetch reports nothing in range, and the jump takes PC back to where it was
(70_reset_and_hazards.md R175). -/
theorem stoppedProgramStays : Obligations.StoppedProgramStays := by
  intro s hidle hstop
  rw [step_idle hidle, cpuStep_known (decode_fetchedWord_of_stopped hstop), exec_jpNnn, zextAddr_setWidth hstop.1,
    afterFetch_inRange hstop.1]
  rfl

end Sys2Proof.Machine
end

section
/-! The instructions of 44_timers_input.md on ST and on the keys: FX18, EX9E, EXA1 and FX0A. -/

namespace Sys2Proof.Machine

/-! ## The operands as numbers (44_timers_input.md R135, R137) -/

theorem keyIndex_val (b : Byte) : (keyIndex b).val = b.toNat % 16 := by
  simp [keyIndex]

theorem zextKey_toNat (k : Nibble) : (zextKey k).toNat = k.val := by
  rw [zextKey, BitVec.toNat_ofNat]
  omega

/-! ## What the instructions answer -/

theorem exec_ldStVx (x : Nibble) (s : State) : exec (.ldStVx x) s = .next (s.setSt (s.getV x)) := rfl

theorem exec_skpVx (x : Nibble) (s : State) :
    exec (.skpVx x) s = .next (skipIf (s.key (keyIndex (s.getV x))) s) := rfl

theorem exec_sknpVx (x : Nibble) (s : State) :
    exec (.sknpVx x) s = .next (skipIf (!s.key (keyIndex (s.getV x))) s) := rfl

/-- FX0A with no key down (44_timers_input.md R135). -/
theorem exec_ldVxK_wait (x : Nibble) {s : State} (h : s.keyMask = 0) :
    exec (.ldVxK x) s = .next (s.setPc s.instrAddr) := congrArg Host.Outcome.next (if_pos h)

/-- FX0A with a key down (44_timers_input.md R135). -/
theorem exec_ldVxK_pressed (x : Nibble) {s : State} (h : s.keyMask ≠ 0) :
    exec (.ldVxK x) s = .next (s.setV x (zextKey (keysel s.keyMask))) := congrArg Host.Outcome.next (if_neg h)

/-- `KEYSEL` picks a key that is down, whenever one is (44_timers_input.md R136). -/
theorem key_keysel {s : State} (h : s.keyMask ≠ 0) : s.key (keysel s.keyMask) = true := by
  rw [← keyMask_getLsbD, keysel_pressed h]

/-! ## The obligations -/

/-- Settles O52: the only update is that of ST, whose level is the tone (44_timers_input.md R132). -/
theorem writeSoundTimerDrivesTone : Obligations.WriteSoundTimerDrivesTone := by
  intro x s
  refine ⟨_, exec_ldStVx x s, setSt_st s _, ?_, setSt_frame s _⟩
  rw [toneOn, setSt_st, bne_iff_ne]

/-- Settles O53: the low four bits of VX are its remainder by 16, and both skips test that key's latch
(44_timers_input.md R133, R134, R137). -/
theorem keySkipsTestTheLatch : Obligations.KeySkipsTestTheLatch := by
  intro x k s hk
  have hkey : keyIndex (s.getV x) = k := Fin.ext ((keyIndex_val _).trans hk.symm)
  refine ⟨⟨_, exec_skpVx x s, ?_, skipIf_frame _ s⟩, ⟨_, exec_sknpVx x s, ?_, skipIf_frame _ s⟩⟩
  · rw [skipIf_pc, hkey]
  · rw [skipIf_pc, hkey]
    cases s.key k <;> rfl

/-- Settles O54: a key is down, so the mask is not zero and `KEYSEL` picks a key that is down
(44_timers_input.md R135, R136). -/
theorem keyWaitStoresAPressedKey : Obligations.KeyWaitStoresAPressedKey := by
  intro x k s hk
  have hmask : s.keyMask ≠ 0 := fun h => by simp [(keyMask_eq_zero s).1 h k] at hk
  have hpressed := key_keysel hmask
  refine ⟨_, keysel s.keyMask, exec_ldVxK_pressed x hmask, ?_, hpressed, fun honly => honly _ hpressed,
    setV_frame s x _⟩
  rw [setV_getV_same, zextKey_toNat]

/-- Settles O55: with no key down the mask is zero, and the PC the fetch advanced is taken back
(44_timers_input.md R135). -/
theorem keyWaitRefetchesItself : Obligations.KeyWaitRefetchesItself := by
  intro x s hup
  refine ⟨⟨_, exec_ldVxK_wait x ((keyMask_eq_zero s).2 hup), rfl, setPc_frame s _⟩, fun hidle hpc hdec => ?_⟩
  have hmask : (s.afterFetch none).keyMask = 0 := (keyMask_eq_zero (s.afterFetch none)).2 hup
  rw [step_idle hidle, cpuStep_known hdec, exec_ldVxK_wait x hmask, afterFetch_instrAddr, afterFetch_inRange hpc]
  rfl

end Sys2Proof.Machine
end

section
/-! Reset and the events of the host: `Reset`, `Load`, `TimerTick`, the edge on the `tick` port, the keys, the display
read, and the runs made of one kind of event. -/

namespace Sys2Proof.Machine

/-! ## Runs -/

theorem core_run_zero (s : State) : Sys2Proof.core.run 0 s = .next s := rfl

/-- A run of any machine goes on from the next state of its first step. -/
theorem run_succ {M : Host.Core} {s t : M.State} (h : M.step s = .next t) (k : Nat) : M.run (k + 1) s = M.run k t := by
  rw [Host.Core.run, h]

theorem core_run_succ {s t : State} (h : step s = .next t) (k : Nat) :
    Sys2Proof.core.run (k + 1) s = Sys2Proof.core.run k t := run_succ (M := Sys2Proof.core) h k

/-! ## Reset (10_state.md R25, 70_reset_and_hazards.md R170) -/

theorem unlisted_font (a : Fin 80) : Memory.unlisted a.val = Config.font a := dif_pos a.isLt

theorem unlisted_mem0 {a : Nat} (h : 80 ≤ a) : Memory.unlisted a = Config.mem0 a := dif_neg (Nat.not_lt.2 h)

theorem reset_getV (r : Nibble) : State.reset.getV r = 0 := Vector.getElem_replicate r.isLt

theorem reset_key (k : Nibble) : State.reset.key k = false := Vector.getElem_replicate k.isLt

theorem reset_pixel (y : Fin 32) (x : Fin 64) : State.reset.pixel y x = false := clearFb_pixel State.reset y x

/-- The font region is rewritten. -/
theorem resetEvent_read_font (s : State) (a : Fin 80) :
    Memory.read (resetEvent s).mem a.val = Config.font a := by
  rw [resetEvent, read_unlistBelow, if_neg (by omega), unlisted_font]

/-- Every other byte is kept. -/
theorem resetEvent_read_kept (s : State) {a : Nat} (h : 80 ≤ a) :
    Memory.read (resetEvent s).mem a = Memory.read s.mem a := by
  rw [resetEvent, read_unlistBelow, if_pos h]

/-! ## The timers (60_exceptions.md R152, R154) -/

/-- The edge and its delivery are the one tick. -/
theorem deliverTick_tickEdge {s : State} (h : s.tickPend = false) : deliverTick (tickEdge s) = timerTick s := by
  cases s
  subst h
  rfl

/-! ## The obligations: single events -/

/-- Settles O6: every field of the reset state is written out, and its memory lists nothing (10_state.md R25). -/
theorem resetStateHoldsResetValues : Obligations.ResetStateHoldsResetValues :=
  ⟨reset_getV, rfl, rfl, rfl, rfl, rfl, rfl, reset_pixel, reset_key, unlisted_font, fun _ => unlisted_mem0, rfl, rfl⟩

/-- Settles O7: the fields of the reset state, but for memory, whose font region alone is unlisted, and for what the
event keeps (70_reset_and_hazards.md R170, R171). -/
theorem resetEventRestoresResetValues : Obligations.ResetEventRestoresResetValues := fun s es hev =>
  ⟨_, step_event hev, reset_getV, rfl, rfl, rfl, rfl, rfl, reset_pixel, reset_key,
    resetEvent_read_font (s.withSchedule es), fun _ => resetEvent_read_kept (s.withSchedule es), rfl, rfl, rfl, rfl,
    rfl, rfl, rfl, rfl⟩

/-- Settles O8: before the run the event is one write of memory, during it a refusal (20_memory.md R40, R49). -/
theorem loadWritesOneByteBeforeTheRun : Obligations.LoadWritesOneByteBeforeTheRun := by
  intro s a b es hev
  refine ⟨fun hs => ⟨_, (step_event hev).trans (loadEvent_unstarted (s := s.withSchedule es) hs a b),
      read_write_same _ _ _, rfl, ?_⟩,
    fun hs => (step_event hev).trans (loadEvent_started (s := s.withSchedule es) hs a b)⟩
  intro p hp
  cases p
  case schedule => exact absurd (.inr rfl) hp
  case mem c => exact read_write_ne _ b (fun h => hp (.inl (congrArg Part.mem h.symm)))
  all_goals rfl

/-- Settles O12: the event counts each timer down by one (60_exceptions.md R152). -/
theorem timerTickCountsBothTimersDown : Obligations.TimerTickCountsBothTimersDown := by
  intro s es hev
  have hcount : ∀ b : Byte, (countDown b).toNat = if 0 < b.toNat then b.toNat - 1 else 0 := by
    intro b
    rw [countDown_toNat]
    split <;> omega
  refine ⟨_, step_event hev, hcount s.dt, hcount s.st, rfl, ?_⟩
  exact ((withSchedule_frame s es).mono fun _ h => .inr (.inr h)).trans
    ((timerTick_frame _).mono fun _ h => h.imp_right .inl)

/-- Settles O14: the edge sets the pending bit alone, and the delivery that follows clears it again
(60_exceptions.md R154). -/
theorem tickEdgeIsDeliveredAsOneTick : Obligations.TickEdgeIsDeliveredAsOneTick := by
  intro s es hev
  have hedge : step s = .next (tickEdge (s.withSchedule es)) := step_event hev
  refine ⟨⟨_, hedge, rfl, fun p hp => ?_⟩, ?_⟩
  · cases p
    case tickPend | schedule => simp at hp
    all_goals rfl
  · have htick : (s.withSchedule (.timerTick :: es)).NextEvent .timerTick es := ⟨hev.1, rfl⟩
    have hdeliver : deliverTick (tickEdge (s.withSchedule es)) = timerTick (s.withSchedule es) :=
      deliverTick_tickEdge hev.1
    rw [core_run_succ hedge, core_run_succ (step_tick rfl), core_run_zero, step_event htick]
    exact congrArg Host.Outcome.next hdeliver

/-- Settles O15: a key event is one write of the key latch, and the display read is the event leaving the schedule
(60_exceptions.md R155, 20_memory.md R48). -/
theorem keyEventsSetAndClearTheLatchAndDisplayReadOnlyReads :
    Obligations.KeyEventsSetAndClearTheLatchAndDisplayReadOnlyReads := by
  intro s k es
  have hkey : ∀ b : Bool, ((s.withSchedule es).setKey k b).key k = b := fun b => by rw [setKey_key, if_pos rfl]
  have hframe : ∀ b : Bool, FrameExcept (fun p => p = .key k ∨ p = .schedule) s ((s.withSchedule es).setKey k b) :=
    fun b => ((withSchedule_frame s es).mono fun _ => .inr).trans ((setKey_frame _ k b).mono fun _ => .inl)
  exact ⟨fun hev => ⟨_, step_event hev, hkey true, rfl, hframe true⟩,
    fun hev => ⟨_, step_event hev, hkey false, rfl, hframe false⟩,
    fun hev => ⟨step_event hev, fun _ _ => rfl⟩⟩

/-! ## The obligations: runs of one kind of event -/

/-- Settles O13, by induction on the number of ticks: each takes one more from both timers (60_exceptions.md R152). -/
theorem ticksCountTimersToZero : Obligations.TicksCountTimersToZero := by
  intro n
  induction n with
  | zero => exact fun s es _ hs => ⟨s, core_run_zero s, rfl, rfl, hs, FrameExcept.refl _ s⟩
  | succ n ih =>
    intro s es hpend hs
    rw [List.replicate_succ, List.cons_append] at hs
    obtain ⟨u, hu, hdt, hst, hsched, hframe⟩ := timerTickCountsBothTimersDown s _ ⟨hpend, hs⟩
    have hpend' : u.tickPend = false := (hframe .tickPend (by simp)).trans hpend
    obtain ⟨t, ht, hdt', hst', hsched', hframe'⟩ := ih u es hpend' hsched
    refine ⟨t, (core_run_succ hu n).trans ht, ?_, ?_, hsched', hframe.trans hframe'⟩
    · rw [hdt', hdt]
      split <;> omega
    · rw [hst', hst]
      split <;> omega

/-- The `Load` events of bytes that are to stand from `base` on. -/
def loadEventsAt (base : Nat) (rom : List Byte) : List Event :=
  rom.mapIdx (fun k b => .load (BitVec.ofNat 12 (base + k)) b)

theorem loadEvents_eq (rom : List Byte) : loadEvents rom = loadEventsAt 0x200 rom := rfl

theorem loadEventsAt_cons (base : Nat) (b : Byte) (rom : List Byte) :
    loadEventsAt base (b :: rom) = .load (BitVec.ofNat 12 base) b :: loadEventsAt (base + 1) rom := by
  simp [loadEventsAt, List.mapIdx_cons, Nat.add_assoc, Nat.add_comm 1]

/-- Bytes that fit into memory from `base` on stand there after their `Load` events, by induction on the bytes. -/
theorem core_run_loadEventsAt (rom : List Byte) : ∀ (base : Nat) (s : State) (es : List Event),
    base + rom.length ≤ 4096 → s.started = false → s.tickPend = false → s.schedule = loadEventsAt base rom ++ es →
    ∃ t, Sys2Proof.core.run rom.length s = .next t ∧ t.schedule = es ∧
      (∀ (k : Nat) (h : k < rom.length), Memory.read t.mem (base + k) = rom[k]) ∧
      FrameExcept (fun p => (∃ k, k < rom.length ∧ p = .mem (base + k)) ∨ p = .schedule) s t := by
  induction rom with
  | nil =>
    intro base s es _ _ _ hs
    exact ⟨s, core_run_zero s, hs, fun k h => absurd h (Nat.not_lt_zero k), FrameExcept.refl _ s⟩
  | cons b rom ih =>
    intro base s es hfit hstarted hpend hs
    rw [loadEventsAt_cons, List.cons_append] at hs
    rw [List.length_cons] at hfit
    obtain ⟨u, hu, hread, hsched, hframe⟩ := (loadWritesOneByteBeforeTheRun s _ b _ ⟨hpend, hs⟩).1 hstarted
    rw [BitVec.toNat_ofNat, Nat.mod_eq_of_lt (by omega)] at hread hframe
    have hstarted' : u.started = false := (hframe .started (by simp)).trans hstarted
    have hpend' : u.tickPend = false := (hframe .tickPend (by simp)).trans hpend
    obtain ⟨t, ht, hsched', hread', hframe'⟩ := ih (base + 1) u es (by omega) hstarted' hpend' hsched
    have hlater : ∀ k, base + 1 + k = base + (k + 1) := fun k => by omega
    refine ⟨t, (core_run_succ hu _).trans ht, hsched', fun k hk => ?_, (hframe.mono ?_).trans (hframe'.mono ?_)⟩
    · cases k with
      | zero => exact (hframe' (.mem base) (by simp; omega)).trans hread
      | succ k =>
        rw [← hlater]
        exact hread' k (Nat.lt_of_succ_lt_succ hk)
    · exact fun p h => h.imp_left (fun h => ⟨0, Nat.succ_pos _, h⟩)
    · rintro p (⟨k, hk, rfl⟩ | h)
      · exact .inl ⟨k + 1, Nat.succ_lt_succ hk, congrArg Part.mem (hlater k)⟩
      · exact .inr h

/-- Settles O9: a ROM of at most 3584 bytes fits into memory from 0x200 on (20_memory.md R40). -/
theorem romIsLoadedVerbatim : Obligations.RomIsLoadedVerbatim := fun s rom es hlen hstarted hpend hs =>
  core_run_loadEventsAt rom 0x200 s es (by omega) hstarted hpend (by rw [hs, loadEvents_eq])

end Sys2Proof.Machine
end

section
/-! The access matrix of 10_state.md R26, instruction by instruction. -/

namespace Sys2Proof.Machine

/-- A return writes what its two cases write together. -/
theorem popReturn_frame_all (op : Word) (s : State) :
    FrameExcept (fun p => p = .pc ∨ p = .sp ∨ p = .fault ∨ p = .faultEvents) s (popReturn op s) := by
  rcases Nat.eq_zero_or_pos s.sp.val with h | h
  · rw [popReturn_empty op h]
    exact (report_frame _ _ _ s).mono fun _ h => .inr (.inr h)
  · exact (popReturn_frame op h).mono fun _ h => h.imp_right .inl

/-- A call writes what its two cases write together. -/
theorem callTo_frame_all (op target : Word) (s : State) :
    FrameExcept (fun p => p = .pc ∨ p = .sp ∨ (∃ k, k.val = s.sp.val ∧ p = .stack k) ∨ p = .fault ∨ p = .faultEvents)
      s (callTo op target s) := by
  rcases Nat.lt_or_ge s.sp.val 16 with h | h
  · exact (callTo_frame op target h).mono fun _ h => h.imp_right (Or.imp_right .inl)
  · rw [callTo_full op target (by omega)]
    exact (report_frame _ _ _ s).mono fun _ h => .inr (.inr (.inr h))

/-- FX0A writes VX or PC (44_timers_input.md R135). -/
theorem exec_ldVxK_frame (x : Nibble) (s : State) :
    ∃ t, exec (.ldVxK x) s = .next t ∧ FrameExcept (fun p => p = .v x ∨ p = .pc) s t := by
  by_cases h : s.keyMask = 0
  · exact ⟨_, exec_ldVxK_wait x h, (setPc_frame s _).mono fun _ => .inr⟩
  · exact ⟨_, exec_ldVxK_pressed x h, (setV_frame s x _).mono fun _ => .inl⟩

/-- The arms of `exec` grouped by the update they end in: the frame of each is that of its update. -/
theorem exec_frame (i : Instr) (s : State) : ∃ t, exec i s = .next t ∧ FrameExcept (writes s i) s t := by
  cases i
  case cls => exact ⟨_, exec_cls s, clearFb_frame s⟩
  case ret => exact ⟨_, exec_ret s, popReturn_frame_all _ s⟩
  case sysNnn nnn => exact ⟨_, exec_sysNnn nnn s, FrameExcept.refl _ s⟩
  case callNnn nnn => exact ⟨_, exec_callNnn nnn s, callTo_frame_all _ _ s⟩
  case jpNnn | jpV0Nnn => exact ⟨_, rfl, setPc_frame s _⟩
  case seVxNn | sneVxNn | seVxVy | sneVxVy | skpVx | sknpVx => exact ⟨_, rfl, skipIf_frame _ s⟩
  case ldVxNn | addVxNn | ldVxVy | orVxVy | andVxVy | xorVxVy | ldVxDt => exact ⟨_, rfl, setV_frame s _ _⟩
  case addVxVy | subVxVy | shrVx | subnVxVy | shlVx => exact ⟨_, rfl, writeWithFlag_frame _ _ _ s⟩
  case ldINnn | addIVx | ldFVx => exact ⟨_, rfl, setI_frame s _⟩
  case rndVxNn x nn => exact ⟨_, exec_rndVxNn x nn s, rndVxNn_frame x _ s⟩
  case drwVxVyN x y n => exact ⟨_, exec_drwVxVyN x y n s, drwVxVyN_frame _ _ _ _ s⟩
  case ldVxK x => exact exec_ldVxK_frame x s
  case ldDtVx x => exact ⟨_, exec_ldDtVx x s, setDt_frame s _⟩
  case ldStVx x => exact ⟨_, exec_ldStVx x s, setSt_frame s _⟩
  case ldBVx x => exact ⟨_, exec_ldBVx x s, storeBcd_frame _ _ s⟩
  case ldMemVx x => exact ⟨_, exec_ldMemVx x s, storeRegs_frame _ _ s⟩
  case ldVxMem x => exact ⟨_, exec_ldVxMem x s, loadRegs_frame_upTo _ x s⟩

/-- Settles O56: an instruction's answer is unique, and its frame is the matrix's row (10_state.md R26). -/
theorem accessMatrixHolds : Obligations.AccessMatrixHolds := by
  intro i s t h
  obtain ⟨u, hu, hframe⟩ := exec_frame i s
  cases hu.symm.trans h
  exact hframe

end Sys2Proof.Machine
end

section
/-! What every step keeps: FAULT as the summary of the fault events, their kinds, the canonical form of memory; and
what a step can do to these at all. -/

namespace Sys2Proof.Machine

/-! ## The kinds of the reported events (60_exceptions.md R140) -/

/-- At most sixteen accesses from a 16-bit address reach at most 0xFFFF + 15. -/
theorem rangeEvents_ok (a : Word) {ea n : Nat} (hea : ea < 65536) (hn : n ≤ 16) : ∀ e ∈ rangeEvents a ea n, e.Ok := by
  intro e he
  simp only [rangeEvents, List.mem_map, List.mem_filter, List.mem_range, decide_eq_true_eq] at he
  obtain ⟨k, ⟨hk, habove⟩, rfl⟩ := he
  show 0xFFF < (BitVec.ofNat 16 (ea + k)).toNat ∨ (BitVec.ofNat 16 (ea + k)).toNat < 15
  rw [BitVec.toNat_ofNat]
  omega

theorem popReturn_reports (s : State) :
    ∃ new, Reports s (popReturn (encode .ret) s) new ∧ ∀ e ∈ new, e.Ok := by
  rcases Nat.eq_zero_or_pos s.sp.val with h | h
  · rw [popReturn_empty _ h]
    exact ⟨_, report_reports .stkUnf _ _ s, List.forall_mem_singleton.2 rfl⟩
  · rw [popReturn_pop _ h]
    exact ⟨[], Reports.of_same rfl rfl, by simp⟩

theorem callTo_reports (nnn : Addr12) (s : State) :
    ∃ new, Reports s (callTo (encode (.callNnn nnn)) (zextAddr nnn) s) new ∧ ∀ e ∈ new, e.Ok := by
  rcases Nat.lt_or_ge s.sp.val 16 with h | h
  · rw [callTo_push _ _ h]
    exact ⟨[], Reports.of_same rfl rfl, by simp⟩
  · rw [callTo_full _ _ (by omega)]
    exact ⟨_, report_reports .stkOvf _ _ s, List.forall_mem_singleton.2 ⟨nnn, rfl⟩⟩

/-- An instruction adds events of their codes' kinds, and sets FAULT by them. Those that the access matrix gives no
write of FAULT add none. -/
theorem exec_reports {i : Instr} {s t : State} (h : exec i s = .next t) :
    ∃ new, Reports s t new ∧ ∀ e ∈ new, e.Ok := by
  have hi := s.i.isLt
  have hframe := accessMatrixHolds i s t h
  cases i
  case ret =>
    cases h
    exact popReturn_reports s
  case callNnn nnn =>
    cases h
    exact callTo_reports nnn s
  case drwVxVyN x y n =>
    cases h
    exact ⟨_, drawSprite_reports s.instrAddr (s.getV x) (s.getV y) n.val (s.setV 15 0), rangeEvents_ok _ hi n.isLt.le⟩
  case ldBVx x =>
    cases h
    exact ⟨_, storeBcd_reports _ _ s, rangeEvents_ok _ hi (by omega)⟩
  case ldMemVx x =>
    cases h
    exact ⟨_, storeRegs_reports _ _ s, rangeEvents_ok _ hi x.isLt⟩
  case ldVxMem x =>
    cases h
    exact ⟨_, loadRegs_reports _ _ s, rangeEvents_ok _ hi x.isLt⟩
  all_goals
    exact ⟨[], Reports.of_same (hframe .faultEvents (by simp [writes])) (hframe .fault (by simp [writes])), by simp⟩

/-- No instruction starts or ends the run. -/
theorem exec_started {i : Instr} {s t : State} (h : exec i s = .next t) : t.started = s.started :=
  accessMatrixHolds i s t h .started (by cases i <;> simp [writes])

/-! ## What a step can do to FAULT and the fault events -/

/-- A `CpuStep` adds events of their codes' kinds, and the run has started. -/
theorem cpuStep_reports {rnd : Option Byte} {s t : State} (h : cpuStep rnd s = .next t) :
    ∃ new, Reports s t new ∧ (∀ e ∈ new, e.Ok) ∧ t.started = true := by
  have hfetch : ∀ e ∈ rangeEvents s.pc s.pc.toNat 2, e.Ok := rangeEvents_ok s.pc s.pc.isLt (by omega)
  rcases hdec : decode s.fetchedWord with - | i
  · cases (cpuStep_unknown hdec rnd).symm.trans h
    refine ⟨_, unknown_reports s rnd, fun e he => ?_, rfl⟩
    rcases List.mem_append.1 he with he | he
    · exact hfetch e he
    · cases List.mem_singleton.1 he
      exact hdec
  · rw [cpuStep_known hdec] at h
    obtain ⟨new, hnew, hok⟩ := exec_reports h
    refine ⟨_, (afterFetch_reports s rnd).trans hnew, fun e he => ?_, exec_started h⟩
    exact (List.mem_append.1 he).elim (hfetch e) (hok e)

/-- The step is an instruction cycle: the free-running CPU's or one the host schedules. -/
def State.RunsCpu (s : State) : Prop := s.Idle ∨ ∃ rnd es, s.NextEvent (.cpuStep rnd) es

/-- A step is a `Reset`, or an instruction cycle, which may report, or it reports nothing. -/
theorem step_reports {s t : State} (h : step s = .next t) :
    (∃ es, s.NextEvent .reset es ∧ t = resetEvent (s.withSchedule es)) ∨
    (s.RunsCpu ∧ ∃ new, Reports s t new ∧ (∀ e ∈ new, e.Ok) ∧ t.started = true) ∨
    (Reports s t [] ∧ t.started = s.started) := by
  rcases step_cases s with ⟨-, hs⟩ | ⟨hidle, hs⟩ | ⟨e, es, hev, hs⟩
  · cases hs.symm.trans h
    exact .inr (.inr ⟨Reports.of_same rfl rfl, rfl⟩)
  · exact .inr (.inl ⟨.inl hidle, cpuStep_reports (hs.symm.trans h)⟩)
  · replace h := hs.symm.trans h
    cases e
    case reset =>
      cases h
      exact .inl ⟨es, hev, rfl⟩
    case cpuStep rnd => exact .inr (.inl ⟨.inr ⟨rnd, es, hev⟩, cpuStep_reports (s := s.withSchedule es) h⟩)
    case load a b =>
      rcases hstarted : s.started
      · cases (loadEvent_unstarted (s := s.withSchedule es) hstarted a b).symm.trans h
        exact .inr (.inr ⟨Reports.of_same rfl rfl, hstarted⟩)
      · cases (loadEvent_started (s := s.withSchedule es) hstarted a b).symm.trans h
    all_goals
      cases h
      exact .inr (.inr ⟨Reports.of_same rfl rfl, rfl⟩)

/-- A bit of FAULT that is set stays set under reports. -/
theorem Reports.fault_sticky {s t : State} {new : List FaultEvent} (h : Reports s t new) {c : FaultCode}
    (hc : s.fault.getLsbD c.bit.val = true) : t.fault.getLsbD c.bit.val = true := by
  rw [h.2, faultAfter_getLsbD, hc, Bool.true_or]

/-- Settles O57: reports only set bits, only an instruction cycle reports, and `Reset` empties both (10_state.md R21,
60_exceptions.md R141). -/
theorem faultBitsAreStickyAndRaisedByInstructionsOnly :
    Obligations.FaultBitsAreStickyAndRaisedByInstructionsOnly := by
  intro s t h
  rcases step_reports h with ⟨es, hev, rfl⟩ | ⟨hcpu, new, hnew, -, -⟩ | ⟨hnone, -⟩
  · exact ⟨fun _ _ => .inr ⟨es, hev⟩, .inr ⟨⟨es, hev⟩, rfl, rfl⟩⟩
  · exact ⟨fun _ hc => .inl (hnew.fault_sticky hc), .inl ⟨new, hnew, fun _ => hcpu⟩⟩
  · exact ⟨fun _ hc => .inl (hnone.fault_sticky hc), .inl ⟨[], hnone, fun hne => absurd rfl hne⟩⟩

/-! ## The canonical form of memory -/

theorem storeRegs_wf (a : Word) (n : Nat) {s : State} (h : Memory.wf s.mem) : Memory.wf (storeRegs a n s).mem := by
  induction n with
  | zero => exact h
  | succ n ih =>
    rw [storeRegs_succ]
    exact memWrite_wf _ _ _ ih

theorem storeBcd_wf (a : Word) (vx : Byte) {s : State} (h : Memory.wf s.mem) : Memory.wf (storeBcd a vx s).mem :=
  memWrite_wf _ _ _ (memWrite_wf _ _ _ (memWrite_wf _ _ _ h))

theorem skipIf_mem (c : Bool) (s : State) : (skipIf c s).mem = s.mem := by rw [skipIf_eq, setPc_mem]

theorem popReturn_mem (op : Word) (s : State) : (popReturn op s).mem = s.mem := by
  unfold popReturn
  split <;> rfl

theorem callTo_mem (op target : Word) (s : State) : (callTo op target s).mem = s.mem := by
  unfold callTo
  split <;> rfl

/-- Only FX33 and FX55 write memory, and they write in its canonical form. -/
theorem exec_wf {i : Instr} {s t : State} (h : exec i s = .next t) (hwf : Memory.wf s.mem) : Memory.wf t.mem := by
  cases i
  case ldBVx x =>
    cases h
    exact storeBcd_wf _ _ hwf
  case ldMemVx x =>
    cases h
    exact storeRegs_wf _ _ hwf
  case ret =>
    cases h
    rwa [popReturn_mem]
  case callNnn nnn =>
    cases h
    rwa [callTo_mem]
  case seVxNn | sneVxNn | seVxVy | sneVxVy | skpVx | sknpVx =>
    cases h
    rwa [skipIf_mem]
  case drwVxVyN x y n =>
    cases h
    rwa [drawSprite_mem]
  case ldVxMem x =>
    cases h
    rwa [loadRegs_mem]
  case ldVxK x =>
    by_cases hmask : s.keyMask = 0
    · cases (exec_ldVxK_wait x hmask).symm.trans h
      exact hwf
    · cases (exec_ldVxK_pressed x hmask).symm.trans h
      exact hwf
  all_goals
    cases h
    exact hwf

theorem cpuStep_wf {rnd : Option Byte} {s t : State} (h : cpuStep rnd s = .next t) (hwf : Memory.wf s.mem) :
    Memory.wf t.mem := by
  rcases hdec : decode s.fetchedWord with - | i
  · cases (cpuStep_unknown hdec rnd).symm.trans h
    exact hwf
  · rw [cpuStep_known hdec] at h
    exact exec_wf h hwf

theorem step_wf {s t : State} (h : step s = .next t) (hwf : Memory.wf s.mem) : Memory.wf t.mem := by
  rcases step_cases s with ⟨-, hs⟩ | ⟨-, hs⟩ | ⟨e, es, -, hs⟩
  · cases hs.symm.trans h
    exact hwf
  · exact cpuStep_wf (hs.symm.trans h) hwf
  · replace h := hs.symm.trans h
    cases e
    case reset =>
      cases h
      exact wf_unlistBelow 80 hwf
    case cpuStep rnd => exact cpuStep_wf (s := s.withSchedule es) h hwf
    case load a b =>
      rcases hstarted : s.started
      · cases (loadEvent_unstarted (s := s.withSchedule es) hstarted a b).symm.trans h
        exact wf_write b a.isLt hwf
      · cases (loadEvent_started (s := s.withSchedule es) hstarted a b).symm.trans h
    all_goals
      cases h
      exact hwf

/-! ## The invariant -/

/-- FAULT stays the summary of the fault events under reports, bit by bit. -/
theorem Reports.summary {s t : State} {new : List FaultEvent} (h : Reports s t new) {c : FaultCode}
    (hc : s.fault.getLsbD c.bit.val = s.faultEvents.any (fun e => e.code == c)) :
    t.fault.getLsbD c.bit.val = t.faultEvents.any (fun e => e.code == c) := by
  rw [h.1, h.2, faultAfter_getLsbD, List.any_append, hc]

/-- The parts of the invariant but memory, after reports of events of their codes' kinds: they need only that a state
before the first `CpuStep` has none. -/
theorem Inv.of_reports {s t : State} {new : List FaultEvent} (hinv : Inv s) (hwf : Memory.wf t.mem)
    (h : Reports s t new) (hok : ∀ e ∈ new, e.Ok) (hstarted : t.started = false → t.faultEvents = []) : Inv t := by
  obtain ⟨-, hsummary, hkinds, -⟩ := hinv
  refine ⟨hwf, fun c => h.summary (hsummary c), fun e he => ?_, hstarted⟩
  rw [h.1] at he
  exact (List.mem_append.1 he).elim (hkinds e) (hok e)

theorem inv_resetEvent {s : State} (hwf : Memory.wf (resetEvent s).mem) : Inv (resetEvent s) :=
  ⟨hwf, fun _ => BitVec.getLsbD_zero, fun _ he => absurd he List.not_mem_nil, fun _ => rfl⟩

/-- Settles O59: memory lists nothing, no bit of FAULT is set and no event is listed. -/
theorem invariantHoldsAtReset : Obligations.InvariantHoldsAtReset :=
  ⟨wf_reset, fun _ => BitVec.getLsbD_zero, fun _ he => absurd he List.not_mem_nil, fun _ => rfl⟩

/-- Settles O60: by what a step can do, a `Reset`, an instruction cycle or neither. -/
theorem stepKeepsInvariant : Obligations.StepKeepsInvariant := by
  intro s t hinv h
  have hwf : Memory.wf t.mem := step_wf h hinv.1
  rcases step_reports h with ⟨es, -, rfl⟩ | ⟨-, new, hnew, hok, hstarted⟩ | ⟨hnone, hsame⟩
  · exact inv_resetEvent hwf
  · exact hinv.of_reports hwf hnew hok (fun hfalse => absurd (hstarted.symm.trans hfalse) (by decide))
  · obtain ⟨-, -, -, hunstarted⟩ := id hinv
    refine hinv.of_reports hwf hnone (by simp) (fun hfalse => ?_)
    rw [hnone.1, hunstarted (hsame.symm.trans hfalse), List.append_nil]

end Sys2Proof.Machine
end

section
/-! What no program can observe: FAULT, the fault events and ST. Two states that agree but for these step alike. -/

namespace Sys2Proof.Machine

/-! ## Two states that differ in the hidden fields alone -/

/-- `s` with the fields no program reads replaced. -/
def State.withHidden (s : State) (f : BitVec 4) (es : List FaultEvent) (b : Byte) : State :=
  { s with fault := f, faultEvents := es, st := b }

/-- `t` is `s` but for FAULT, the fault events and ST. -/
def Alike (s t : State) : Prop := ∃ f es b, t = s.withHidden f es b

theorem Alike.refl (s : State) : Alike s s := ⟨s.fault, s.faultEvents, s.st, rfl⟩

theorem alike_withHidden (s : State) (f : BitVec 4) (es : List FaultEvent) (b : Byte) :
    Alike s (s.withHidden f es b) := ⟨f, es, b, rfl⟩

/-- An update that takes alike states to alike states. -/
def Blind (g : State → State) : Prop := ∀ s t, Alike s t → Alike (g s) (g t)

/-- A loop of blind turns. -/
theorem Blind.foldl {turn : State → Nat → State} (h : ∀ k, Blind (fun s => turn s k)) (l : List Nat) :
    Blind (fun s => l.foldl turn s) := by
  induction l with
  | nil => exact fun _ _ hst => hst
  | cons k l ih => exact fun s t hst => ih _ _ (h k s t hst)

/-! ## The shared operations are blind -/

theorem report_blind (code : FaultCode) (a info : Word) : Blind (report code a info) := by
  rintro s _ ⟨f, es, b, rfl⟩
  exact ⟨_, _, b, rfl⟩

theorem reportRange_blind (a : Word) (ea : Nat) : Blind (reportRange a ea) := by
  rintro s _ ⟨f, es, b, rfl⟩
  rw [reportRange_eq, reportRange_eq]
  exact ⟨_, _, b, rfl⟩

theorem setV_blind (x : Nibble) (v : Byte) : Blind (fun s => s.setV x v) := by
  rintro s _ ⟨f, es, b, rfl⟩
  exact ⟨f, es, b, rfl⟩

theorem memWrite_blind (a : Word) (ea : Nat) (v : Byte) : Blind (memWrite a ea v) := by
  rintro s _ ⟨f, es, b, rfl⟩
  rw [memWrite, memWrite, reportRange_eq, reportRange_eq]
  exact ⟨_, _, b, rfl⟩

theorem skipIf_blind (c : Bool) : Blind (skipIf c) := by
  rintro s _ ⟨f, es, b, rfl⟩
  rw [skipIf_eq, skipIf_eq]
  exact ⟨f, es, b, rfl⟩

theorem popReturn_blind (op : Word) : Blind (popReturn op) := by
  rintro s _ ⟨f, es, b, rfl⟩
  rcases Nat.eq_zero_or_pos s.sp.val with h | h
  · rw [popReturn_empty op h, popReturn_empty op (s := s.withHidden f es b) h]
    exact report_blind .stkUnf s.instrAddr op _ _ (alike_withHidden s f es b)
  · rw [popReturn_pop op h, popReturn_pop op (s := s.withHidden f es b) h]
    exact ⟨f, es, b, rfl⟩

theorem callTo_blind (op target : Word) : Blind (callTo op target) := by
  rintro s _ ⟨f, es, b, rfl⟩
  rcases Nat.lt_or_ge s.sp.val 16 with h | h
  · rw [callTo_push op target h, callTo_push op target (s := s.withHidden f es b) h]
    exact ⟨f, es, b, rfl⟩
  · have hfull : s.sp.val = 16 := by omega
    rw [callTo_full op target hfull, callTo_full op target (s := s.withHidden f es b) hfull]
    exact report_blind .stkOvf s.instrAddr op _ _ (alike_withHidden s f es b)

/-! ## The loops are blind -/

theorem storeRegs_blind (a : Word) (n : Nat) : Blind (storeRegs a n) := by
  refine Blind.foldl (fun k => ?_) (List.range n)
  rintro s _ ⟨f, es, b, rfl⟩
  exact memWrite_blind a (dataAddr s k) (s.getV (Fin.ofNat 16 k)) _ _ (alike_withHidden s f es b)

theorem loadRegs_blind (a : Word) (n : Nat) : Blind (loadRegs a n) := by
  refine Blind.foldl (fun k => ?_) (List.range n)
  rintro s _ ⟨f, es, b, rfl⟩
  exact setV_blind _ (Memory.read s.mem (dataAddr s k % 4096)) _ _
    (reportRange_blind a (dataAddr s k) _ _ (alike_withHidden s f es b))

theorem storeBcd_blind (a : Word) (vx : Byte) : Blind (storeBcd a vx) := by
  rintro s _ ⟨f, es, b, rfl⟩
  exact memWrite_blind a (dataAddr s 2) _ _ _ (memWrite_blind a (dataAddr s 1) _ _ _
    (memWrite_blind a (dataAddr s 0) _ _ _ (alike_withHidden s f es b)))

theorem togglePixel_blind (y : Fin 32) (x : Fin 64) : Blind (togglePixel y x) := by
  rintro s _ ⟨f, es, b, rfl⟩
  have hpixel : (s.withHidden f es b).pixel y x = s.pixel y x := rfl
  rw [togglePixel, togglePixel, hpixel]
  split <;> exact ⟨f, es, b, rfl⟩

theorem drawByte_blind (v x0 : Byte) (y : Fin 32) : Blind (drawByte v x0 y) := by
  refine Blind.foldl (fun k s t hst => ?_) (List.range 8)
  simp only [drawBit]
  split
  · exact togglePixel_blind y _ s t hst
  · exact hst

theorem drawSprite_blind (a : Word) (x0 y0 : Byte) (n : Nat) : Blind (drawSprite a x0 y0 n) := by
  refine Blind.foldl (fun k => ?_) (List.range n)
  rintro s _ ⟨f, es, b, rfl⟩
  exact drawByte_blind (Memory.read s.mem (dataAddr s k % 4096)) x0 (drawRow y0 k) _ _
    (reportRange_blind a (dataAddr s k) _ _ (alike_withHidden s f es b))

/-! ## Instructions -/

/-- FX0A reads the keys alone (44_timers_input.md R135). -/
theorem exec_ldVxK_alike (x : Nibble) {s t : State} (hst : Alike s t) :
    ∃ s' t', exec (.ldVxK x) s = .next s' ∧ exec (.ldVxK x) t = .next t' ∧ Alike s' t' := by
  obtain ⟨f, es, b, rfl⟩ := hst
  by_cases h : s.keyMask = 0
  · exact ⟨_, _, exec_ldVxK_wait x h, exec_ldVxK_wait x (s := s.withHidden f es b) h, f, es, b, rfl⟩
  · exact ⟨_, _, exec_ldVxK_pressed x h, exec_ldVxK_pressed x (s := s.withHidden f es b) h, f, es, b, rfl⟩

/-- FX18 writes ST alike in both (44_timers_input.md R132). -/
theorem exec_ldStVx_withHidden (x : Nibble) (s : State) (f : BitVec 4) (es : List FaultEvent) (b : Byte) :
    exec (.ldStVx x) (s.withHidden f es b) = .next ((s.setSt (s.getV x)).withHidden f es (s.getV x)) := rfl

/-- Every instruction takes alike states to alike states: it reports and writes ST, and it reads none of these. -/
theorem exec_alike (i : Instr) {s t : State} (hst : Alike s t) :
    ∃ s' t', exec i s = .next s' ∧ exec i t = .next t' ∧ Alike s' t' := by
  obtain ⟨f, es, b, rfl⟩ := id hst
  cases i
  case ret => exact ⟨_, _, exec_ret s, exec_ret _, popReturn_blind _ _ _ hst⟩
  case callNnn nnn => exact ⟨_, _, exec_callNnn nnn s, exec_callNnn nnn _, callTo_blind _ _ _ _ hst⟩
  case seVxNn | sneVxNn | seVxVy | sneVxVy | skpVx | sknpVx => exact ⟨_, _, rfl, rfl, skipIf_blind _ s _ hst⟩
  case ldBVx x => exact ⟨_, _, exec_ldBVx x s, exec_ldBVx x _, storeBcd_blind _ _ s _ hst⟩
  case ldMemVx x => exact ⟨_, _, exec_ldMemVx x s, exec_ldMemVx x _, storeRegs_blind _ _ s _ hst⟩
  case ldVxMem x => exact ⟨_, _, exec_ldVxMem x s, exec_ldVxMem x _, loadRegs_blind _ _ s _ hst⟩
  case drwVxVyN x y n =>
    exact ⟨_, _, exec_drwVxVyN x y n s, exec_drwVxVyN x y n _,
      drawSprite_blind _ _ _ _ _ _ (setV_blind 15 0 s _ hst)⟩
  case ldVxK x => exact exec_ldVxK_alike x hst
  case ldStVx x => exact ⟨_, _, exec_ldStVx x s, exec_ldStVx_withHidden x s f es b, f, es, s.getV x, rfl⟩
  all_goals exact ⟨_, _, rfl, rfl, f, es, b, rfl⟩

/-! ## Steps -/

/-- Both outcomes are next states that are alike, or both are the same refusal. -/
def OutcomesAlike (o o' : Host.Outcome State Fault Refusal) : Prop :=
  (∃ s t, o = .next s ∧ o' = .next t ∧ Alike s t) ∨ (∃ r, o = .refused r ∧ o' = .refused r)

theorem OutcomesAlike.next {o o' : Host.Outcome State Fault Refusal} {s : State} (h : OutcomesAlike o o')
    (ho : o = .next s) : ∃ t, o' = .next t ∧ Alike s t := by
  rcases h with ⟨_, t, hs, ht, hst⟩ | ⟨_, hr, -⟩
  · cases ho.symm.trans hs
    exact ⟨t, ht, hst⟩
  · cases ho.symm.trans hr

theorem OutcomesAlike.refused {o o' : Host.Outcome State Fault Refusal} {r : Refusal} (h : OutcomesAlike o o')
    (ho : o = .refused r) : o' = .refused r := by
  rcases h with ⟨_, _, hs, -, -⟩ | ⟨_, hr, hr'⟩
  · cases ho.symm.trans hs
  · cases ho.symm.trans hr
    exact hr'

theorem dispatch_alike (op : Word) {s t : State} (hst : Alike s t) : OutcomesAlike (dispatch op s) (dispatch op t) := by
  obtain ⟨f, es, b, rfl⟩ := id hst
  unfold dispatch
  split
  · exact .inl (exec_alike _ hst)
  · exact .inl ⟨_, _, rfl, rfl, report_blind .unk s.instrAddr op _ _ hst⟩

theorem cpuStep_alike (rnd : Option Byte) {s t : State} (hst : Alike s t) :
    OutcomesAlike (cpuStep rnd s) (cpuStep rnd t) := by
  obtain ⟨f, es, b, rfl⟩ := hst
  rw [cpuStep_eq, cpuStep_eq]
  exact dispatch_alike s.fetchedWord ⟨_, _, b, rfl⟩

theorem loadEvent_alike (a : Addr12) (v : Byte) {s t : State} (hst : Alike s t) :
    OutcomesAlike (loadEvent a v s) (loadEvent a v t) := by
  obtain ⟨f, es, b, rfl⟩ := hst
  rcases h : s.started
  · exact .inl ⟨_, _, loadEvent_unstarted h a v, loadEvent_unstarted (s := s.withHidden f es b) h a v, f, es, b, rfl⟩
  · exact .inr ⟨_, loadEvent_started h a v, loadEvent_started (s := s.withHidden f es b) h a v⟩

/-- `Reset` forgets the hidden fields, a tick counts ST down, every other event leaves them or reports. -/
theorem applyEvent_alike (e : Event) {s t : State} (hst : Alike s t) :
    OutcomesAlike (applyEvent e s) (applyEvent e t) := by
  obtain ⟨f, es, b, rfl⟩ := id hst
  cases e
  case load a v => exact loadEvent_alike a v hst
  case cpuStep rnd => exact cpuStep_alike (some rnd) hst
  case reset => exact .inl ⟨_, _, rfl, rfl, Alike.refl _⟩
  case timerTick => exact .inl ⟨_, _, rfl, rfl, f, es, countDown b, rfl⟩
  all_goals exact .inl ⟨_, _, rfl, rfl, f, es, b, rfl⟩

theorem step_alike {s t : State} (hst : Alike s t) : OutcomesAlike (step s) (step t) := by
  obtain ⟨f, es, b, rfl⟩ := id hst
  rcases step_cases s with ⟨htick, hs⟩ | ⟨hidle, hs⟩ | ⟨e, later, hev, hs⟩
  · rw [hs, step_tick (s := s.withHidden f es b) htick]
    exact .inl ⟨_, _, rfl, rfl, f, es, countDown b, rfl⟩
  · rw [hs, step_idle (s := s.withHidden f es b) hidle]
    exact cpuStep_alike none hst
  · rw [hs, step_event (s := s.withHidden f es b) hev]
    exact applyEvent_alike e ⟨f, es, b, rfl⟩

/-! ## The obligation -/

/-- Settles O58: steps and instructions take alike states to alike states; FX18 alone is looked at again, for the ST
it writes (60_exceptions.md R141, 10_state.md R17). -/
theorem faultAndSoundTimerAreInvisible : Obligations.FaultAndSoundTimerAreInvisible := by
  intro s f es b
  have hst := alike_withHidden s f es b
  refine ⟨fun t ht => ?_, fun r hr => (step_alike hst).refused hr, fun i t ht => ?_⟩
  · obtain ⟨_, hu, f', es', b', rfl⟩ := (step_alike hst).next ht
    exact ⟨f', es', b', hu⟩
  · by_cases hi : ∃ x, i = .ldStVx x
    · obtain ⟨x, rfl⟩ := hi
      cases (exec_ldStVx x s).symm.trans ht
      exact ⟨f, es, s.getV x, exec_ldStVx_withHidden x s f es b, fun _ _ => rfl⟩
    · obtain ⟨_, hu, f', es', b', rfl⟩ := OutcomesAlike.next (.inl (exec_alike i hst)) ht
      exact ⟨f', es', b', hu, fun x hx => absurd ⟨x, hx⟩ hi⟩

end Sys2Proof.Machine
end
